-- ==== Sys2Proof/Word.lean ====
section
/-! DEFINITION. The word types of the block: bytes of the bit array, 32-bit bus words and the 128-bit operand width
(00_scope.md R8, R11; 20_memory.md R46). -/

namespace Sys2Proof

/-- A byte of the bit array and the DATA register's field (10_state.md R28, R37). -/
abbrev Byte := BitVec 8

/-- A 32-bit register word and a command word (20_memory.md R46, 30_encoding.md R61). -/
abbrev Word := BitVec 32

/-- A value of operand width OPW = 128: OPERAND, SIZE, BYTES, IDX, CAP (00_scope.md R8). -/
abbrev Quad := BitVec 128

/-- An offset in the 256-byte register window (20_memory.md R46). -/
abbrev Offset := BitVec 8

end Sys2Proof
end

