-- ==== Sys2Proof/Syntax.lean ====
section
/-! DEFINITION. The commands of the block: one constructor for each row of the opcode map (30_encoding.md R64). -/

namespace Sys2Proof

/-- A command. It has no operand fields: a command reads its operands from registers at the moment it executes
(30_encoding.md R62). -/
inductive Instr where
  /-- 0x00: no operation (43_control.md R90). -/
  | nop
  /-- 0x01: create a zero-filled array of OPERAND bits (40_bitfield.md R73). -/
  | init
  /-- 0x02: set bit OPERAND (40_bitfield.md R74). -/
  | setb
  /-- 0x03: read bit OPERAND into RESULT (40_bitfield.md R75). -/
  | getb
  /-- 0x04: reduce the hash in OPERAND into IDX (41_reduction.md R82). -/
  | reduce
  /-- 0x05: reduce the hash and set that bit (41_reduction.md R83). -/
  | seth
  /-- 0x06: reduce the hash and read that bit (41_reduction.md R84). -/
  | geth
  /-- 0x07: read array byte OPERAND into DATA (42_byte_access.md R87). -/
  | rdbyte
  /-- 0x08: OR DATA into array byte OPERAND (42_byte_access.md R88). -/
  | orbyte
  /-- 0x09: clear the error record (43_control.md R91). -/
  | clrerr
deriving DecidableEq, Repr

end Sys2Proof
end

