-- ==== Sys2Proof/WellFormed.lean ====
section
/-! DEFINITION. What is well formed: a command word (30_encoding.md R61, R65), and the numbers a host program writes
(30_encoding.md R69, R70). -/

namespace Sys2Proof.WellFormed

/-- A command has no fields, so every one is well formed (30_encoding.md R62). -/
def instr : Instr → Bool := fun _ => true

/-- A command word: MBZ bits 31:8 zero and an opcode 0x00 to 0x09 (30_encoding.md R65). -/
def commandWord (w : Word) : Bool := w.extractLsb' 8 24 == 0 && w.toNat % 256 ≤ 9

/-- The operand of LDOP: `0 <= v < 2^128` (30_encoding.md R69). -/
def quad (v : Nat) : Bool := v < 2 ^ 128

/-- The operand of LDOP32 and the value of a bus write: `0 <= v < 2^32` (30_encoding.md R68, R69). -/
def word (v : Nat) : Bool := v < 2 ^ 32

/-- The byte of ORBYTE and LDDATA (30_encoding.md R70; DATA holds 8 bits, 10_state.md R28). -/
def byte (v : Nat) : Bool := v < 2 ^ 8

/-- The mode of MODE: U32, S32, U128, S128, or 0 to 3 (30_encoding.md R70). -/
def mode (m : Nat) : Bool := m ≤ 3

/-- The commands that a line may give an operand (30_encoding.md R70: INIT, SETB, GETB, REDUCE, SETH, GETH, RDBYTE;
ORBYTE has a line form of its own). -/
def takesOperand : Instr → Bool
  | .init | .setb | .getb | .reduce | .seth | .geth | .rdbyte => true
  | .nop | .orbyte | .clrerr => false

end Sys2Proof.WellFormed
end

