-- ==== Sys2Proof/Decode.lean ====
section
/-! DEFINITION. Decoding of command words, total and rejecting by name, and the encoder (30_encoding.md R61 to R67). -/

namespace Sys2Proof

/-- Why a word is no command (30_encoding.md R65, R66). Either way it is illegal: error IllegalCommand (R92). -/
inductive DecodeError where
  /-- A bit of MBZ (31:8) is 1. -/
  | mbzNotZero
  /-- The opcode is one of 0x0A to 0xFF. -/
  | reservedOpcode
  /-- The bytes given are not the four bytes of one word (30_encoding.md R67: there is no other length). -/
  | notOneWord
deriving DecidableEq, Repr

/-- The MBZ field, bits 31:8 (30_encoding.md R61). -/
def mbzField (w : Word) : BitVec 24 := w.extractLsb' 8 24

/-- The OPC field, bits 7:0 (30_encoding.md R61); also what the error record keeps of a failed word (R97). -/
def opcField (w : Word) : Byte := w.extractLsb' 0 8

/-- The opcode map, read from opcode to command (30_encoding.md R64, R66). -/
def commandOf (opc : Byte) : Except DecodeError Instr :=
  match opc.toNat with
  | 0x00 => .ok .nop
  | 0x01 => .ok .init
  | 0x02 => .ok .setb
  | 0x03 => .ok .getb
  | 0x04 => .ok .reduce
  | 0x05 => .ok .seth
  | 0x06 => .ok .geth
  | 0x07 => .ok .rdbyte
  | 0x08 => .ok .orbyte
  | 0x09 => .ok .clrerr
  | _ => .error .reservedOpcode

/-- Decoding of a CMD word (30_encoding.md R65). -/
def decode (w : Word) : Except DecodeError Instr :=
  if mbzField w = 0 then commandOf (opcField w) else .error .mbzNotZero

/-- The opcode of a command (30_encoding.md R64). -/
def opcodeOf : Instr → Byte
  | .nop => 0x00
  | .init => 0x01
  | .setb => 0x02
  | .getb => 0x03
  | .reduce => 0x04
  | .seth => 0x05
  | .geth => 0x06
  | .rdbyte => 0x07
  | .orbyte => 0x08
  | .clrerr => 0x09

/-- The command word of a command, `zext_32(OPC)` (30_encoding.md R64). -/
def encode (i : Instr) : Word := (opcodeOf i).setWidth 32

/-- The four bytes of a word in bus-address order, little-endian (20_memory.md R50). -/
def bytesOf (w : Word) : List Byte :=
  [w.extractLsb' 0 8, w.extractLsb' 8 8, w.extractLsb' 16 8, w.extractLsb' 24 8]

/-- Decoding of bytes in bus-address order: exactly the four of one word (20_memory.md R50, 30_encoding.md R67). -/
def decodeBytes : List Byte → Except DecodeError Instr
  | [b0, b1, b2, b3] => decode (b3 ++ b2 ++ b1 ++ b0)
  | _ => .error .notOneWord

/-- The command read from a word of the opcode table's numbering: `w` cut to its low `nbits` bits, every bit above
zero. A word of more than 32 bits is no command (30_encoding.md R67; log entry 12). -/
def decodeTableWord (nbits w : Nat) : Option Instr :=
  if w % 2 ^ nbits < 2 ^ 32 then
    match decodeBytes (bytesOf (BitVec.ofNat 32 (w % 2 ^ nbits))) with
    | .ok i => some i
    | .error _ => none
  else none

end Sys2Proof
end

