-- ==== Sys2Proof/Config.lean ====
section
/-! DEFINITION. The parameters the spec leaves open and the free values (00_scope.md R6, R9; 10_state.md R43).
Nothing here has a value Lean could compute: a claim that names one holds whatever it is. -/

namespace Sys2Proof.Config

/-- The number NBITS_MAX is made from; free. -/
opaque nbitsMaxSeed : Nat

/-- NBITS_MAX, the capacity of the bit array in bits (00_scope.md R6): any value with 1 <= NBITS_MAX < 2^128, and
none other, since the seed is free. DESIGN CHOICE of form only, log entry 4; safe. -/
def nbitsMax : Nat := nbitsMaxSeed % (2 ^ 128 - 1) + 1

/-- The number BASE is made from; free. -/
opaque basePage : Nat

/-- BASE, the bus address of the register window, aligned to 256 bytes (00_scope.md R9); log entry 5; safe. -/
def base : Nat := 256 * basePage

/-- What SRAM byte `a` holds after a reset, in the `draw`-th draw: unspecified, any value (10_state.md R43;
93_implementation_defined.md row 5, one draw a byte). A free value; log entry 6; safe. -/
opaque sramByte (draw a : Nat) : Byte

end Sys2Proof.Config
end

