-- ==== Sys2Proof/Machine/State.lean ====
section
/-! DEFINITION. The block's state as plain data, the host's events and what the host sees of them, the reasons a step
can stop, and the state after reset (10_state.md R17 to R44). -/

namespace Sys2Proof.Machine

/-- The reduction mode CTRL.HMODE: any of the four 2-bit values (10_state.md R21, R22). -/
inductive HMode where
  /-- 0: OPERAND[31:0] as an unsigned integer. -/
  | u32
  /-- 1: OPERAND[31:0] as a two's-complement integer. -/
  | s32
  /-- 2: OPERAND[127:0] as an unsigned integer. -/
  | u128
  /-- 3: OPERAND[127:0] as a two's-complement integer. -/
  | s128
deriving DecidableEq, Repr

/-- The error codes of STATUS.ERRCODE that are ever produced (60_exceptions.md R95). The reserved codes 5 to 15 have
no name here, so no state holds one (93_implementation_defined.md row 10; log entry 9, safe). -/
inductive ErrCode where
  /-- 0: no error recorded. -/
  | noError
  /-- 1: INIT with a size of zero or above NBITS_MAX. -/
  | invalidParameters
  /-- 2: a bit index at or above SIZE, or a byte index at or above BYTES. -/
  | indexOutOfRange
  /-- 3: a CMD word that does not decode. -/
  | illegalCommand
  /-- 4: an array command while CFG = 0. -/
  | notConfigured
deriving DecidableEq, Repr

/-- The width of a host access: a number of bits, or a burst of some beats (20_memory.md R52). -/
inductive Width where
  | bits (n : Nat)
  | burst (beats : Nat)
deriving DecidableEq, Repr

/-- What the outside does to the block: one bus access, or reset (20_memory.md R46, R52; 70_reset_and_hazards.md
R111). `off` is the offset from BASE. A write's value is the 32-bit word; what else a wider write carries is not kept,
since such a write has no effect (R52; log entry 11, safe). An access that overlaps reset and a second master are no
events (R111, R60; log entry 10). -/
inductive HostEvent where
  | read (width : Width) (off : Offset)
  | write (width : Width) (off : Offset) (value : Word)
  | reset
deriving DecidableEq, Repr

/-- What the host sees of one access (20_memory.md R46, R52; 70_reset_and_hazards.md R125). -/
inductive Response where
  /-- A read returned this word. -/
  | data (w : Word)
  /-- A write was accepted by the bus. -/
  | done
  /-- A bus error: no effect and, for a read, no data. -/
  | busError
deriving DecidableEq, Repr

/-- The bit array `A` (10_state.md R37), as a list of (byte address, byte) in canonical form (`Memory.wf`, Ops.lean).
`filled` and `draw` are the MODEL's own: an unlisted byte below `filled`, the part some INIT has zero-filled since the
last reset, reads 0; an unlisted byte at or above it still holds what SRAM held, the free value of draw `draw`
(R43; log entry 6, safe). -/
structure Memory where
  cells : List Host.Cell
  filled : Nat
  draw : Nat
deriving DecidableEq, Repr

/-- The architectural state, exactly that of 10_state.md R17: the registers and their fields, and the bit array; and
the MODEL's own `host` and `seen`. Reserved bits and CMD hold nothing (R27, R35). -/
structure State where
  /-- CTRL.HMODE (R21, R22). -/
  hmode : HMode
  /-- STATUS.CFG (R24). -/
  cfg : Bool
  /-- STATUS.RESULT (R25). -/
  result : Bool
  /-- STATUS.ERR (R26). -/
  err : Bool
  /-- STATUS.ERRCODE (R26, R95). -/
  errcode : ErrCode
  /-- STATUS.ERROP (R26). -/
  errop : Byte
  /-- DATA (R28). -/
  data : Byte
  /-- OPERAND (R29). -/
  operand : Quad
  /-- SIZE (R30). -/
  size : Quad
  /-- BYTES (R31). -/
  bytes : Quad
  /-- IDX (R32). -/
  idx : Quad
  /-- CAP, the constant NBITS_MAX (R33). -/
  cap : Quad
  /-- The bit array `A` (R37). -/
  array : Memory
  /-- MODEL's own: the host events still to come, in issue order (20_memory.md R56; log entry 1). -/
  host : List HostEvent
  /-- MODEL's own: what the host has seen of its accesses, oldest first (R125; log entry 2). -/
  seen : List Response
deriving DecidableEq, Repr

/-- The reasons a step can stop with a fault. The block itself never halts (60_exceptions.md R94). -/
inductive Fault where
  /-- MemRead or MemWrite of a byte at or above NBYTES_MAX, which does not exist (10_state.md R37). Raised by SETB,
  GETB, SETH, GETH, RDBYTE and ORBYTE, only in a state that breaks 10_state.md R39, which no run reaches. Safe: the
  model stops where the spec gives no meaning (log entry 8). -/
  | noSuchArrayByte (address : Nat)
deriving DecidableEq, Repr

/-- The reasons a step can be refused. -/
inductive Refusal where
  /-- An instruction with no meaning in the model yet; raised in exec's arm only, and by no arm now. Safe. -/
  | notModelled (mnemonic : String)
deriving DecidableEq, Repr

/-- The outcome of one step of the block. -/
abbrev Outcome := Host.Outcome State Fault Refusal

/-- The state after reset (10_state.md R42): every register 0, CAP = NBITS_MAX, the array unspecified (R43). The
model's own fields: no event to come, nothing seen, draw 0 (DESIGN CHOICE, log entries 1, 2, 6, 18; safe). -/
def State.reset : State where
  hmode := .u32
  cfg := false
  result := false
  err := false
  errcode := .noError
  errop := 0
  data := 0
  operand := 0
  size := 0
  bytes := 0
  idx := 0
  cap := BitVec.ofNat 128 Config.nbitsMax
  array := ⟨[], 0, 0⟩
  host := []
  seen := []

end Sys2Proof.Machine
end

