-- ==== Sys2Proof/Machine/Ops.lean ====
section
/-! DEFINITION. The shared operations: the words of a 128-bit register, the bit array, the register updates, recording
an error (the block's whole exception mechanism) and clearing it, and reset. -/

namespace Sys2Proof.Machine

/-! ## Numbers and bits (00_scope.md R12; 20_memory.md R48, R49) -/

/-- `ceil8(n) = (n + 7) div 8` (00_scope.md R12). -/
def ceil8 (n : Nat) : Nat := (n + 7) / 8

/-- The mask of bit `i` in its byte, `1 << (i mod 8)`: LSB-first (20_memory.md R48). -/
def bitMask (i : Nat) : Byte := 1#8 <<< (i % 8)

/-- Bit `i` of its byte `b`, `(b >> (i mod 8)) & 1` (20_memory.md R49). -/
def bitIn (b : Byte) (i : Nat) : Bool := (b >>> (i % 8)) &&& 1#8 == 1#8

/-! ## The words of a 128-bit register (10_state.md R34) -/

/-- Word `k` of a 128-bit value: bits `32k+31 : 32k` (10_state.md R34). -/
def wordOf (x : Quad) (k : Fin 4) : Word := x.extractLsb' (32 * k.val) 32

/-- `X3 ++ X2 ++ X1 ++ X0` (10_state.md R34). -/
def quadOf (x3 x2 x1 x0 : Word) : Quad := x3 ++ x2 ++ x1 ++ x0

/-- A 128-bit value with word `k` replaced and no other bit (10_state.md R34). -/
def setWordOf (x : Quad) (k : Fin 4) (w : Word) : Quad :=
  quadOf (if k = 3 then w else wordOf x 3) (if k = 2 then w else wordOf x 2)
    (if k = 1 then w else wordOf x 1) (if k = 0 then w else wordOf x 0)

/-! ## The bit array (10_state.md R37; 20_memory.md R47) -/

/-- What a byte that no entry lists reads as: 0 in the part INIT has zero-filled (40_bitfield.md R73), else the
unspecified content of SRAM after reset, a free value (10_state.md R43; log entry 6, safe). -/
def Memory.unlisted (m : Memory) (a : Nat) : Byte :=
  if a < m.filled then 0 else Config.sramByte m.draw a

/-- The byte listed at an address, if one is. -/
def findCell : List Host.Cell → Nat → Option Byte
  | [], _ => none
  | (b, v) :: rest, a => if b = a then some v else findCell rest a

/-- The list with the entry of an address set, addresses kept rising. -/
def putCell : List Host.Cell → Nat → Byte → List Host.Cell
  | [], a, v => [(a, v)]
  | (b, u) :: rest, a, v =>
    if a < b then (a, v) :: (b, u) :: rest
    else if a = b then (a, v) :: rest
    else (b, u) :: putCell rest a v

/-- `A[a]`. -/
def Memory.read (m : Memory) (a : Nat) : Byte := (findCell m.cells a).getD (m.unlisted a)

/-- `A` with `A[a]` set to `v`, in canonical form: the value an unlisted byte reads as is not listed. -/
def Memory.write (m : Memory) (a : Nat) (v : Byte) : Memory :=
  if v = m.unlisted a then { m with cells := m.cells.filter (fun c => c.1 != a) }
  else { m with cells := putCell m.cells a v }

/-- `A` with `A[0]` to `A[n-1]` set to 0: the loop of INIT (40_bitfield.md R73) in one move, equal to it by
`Sys2Proof.Laws.zeroFill_read_eq_loop` (DEDUCED, log entry 7, safe). -/
def Memory.zeroFill (m : Memory) (n : Nat) : Memory :=
  { m with cells := m.cells.filter (fun c => n ≤ c.1), filled := max m.filled n }

/-- The canonical form: addresses strictly rise, and no entry equals what an unlisted byte reads as. -/
abbrev Memory.wf (m : Memory) : Prop :=
  m.cells.Pairwise (fun c d => c.1 < d.1) ∧ ∀ c ∈ m.cells, c.2 ≠ m.unlisted c.1

/-- NBYTES_MAX = ceil(NBITS_MAX / 8), the bytes that exist (00_scope.md R7). -/
def State.nbytesMax (s : State) : Nat := ceil8 s.cap.toNat

/-- Bit `i` of the array: bit `i mod 8` of `A[i div 8]` (20_memory.md R48). -/
def State.bit (s : State) (i : Nat) : Bool := bitIn (s.array.read (i / 8)) i

/-! ## Register updates, one for each register a command or a bus write changes -/

/-- CTRL.HMODE <- m (10_state.md R21). -/
def State.setMode (s : State) (m : HMode) : State := { s with hmode := m }

/-- DATA <- b (10_state.md R28). -/
def State.setData (s : State) (b : Byte) : State := { s with data := b }

/-- OPERAND <- x (10_state.md R29). -/
def State.setOperand (s : State) (x : Quad) : State := { s with operand := x }

/-- STATUS.RESULT <- b (10_state.md R25). -/
def State.setResult (s : State) (b : Bool) : State := { s with result := b }

/-- IDX <- i (10_state.md R32). -/
def State.setIdx (s : State) (i : Nat) : State := { s with idx := BitVec.ofNat 128 i }

/-- `A` <- m. -/
def State.setArray (s : State) (m : Memory) : State := { s with array := m }

/-- What a successful INIT of `n` bits writes beside the array: SIZE, BYTES, CFG, RESULT, IDX (40_bitfield.md R73). -/
def State.configure (s : State) (n : Nat) : State :=
  { s with size := BitVec.ofNat 128 n, bytes := BitVec.ofNat 128 (ceil8 n), cfg := true, result := false, idx := 0 }

/-- The host sees `r` of the access it has made. -/
def State.respond (s : State) (r : Response) : State := { s with seen := s.seen ++ [r] }

/-- The events still to come are `es`. -/
def State.withHost (s : State) (es : List HostEvent) : State := { s with host := es }

/-! ## Errors: recording one, and clearing the record (60_exceptions.md R94 to R104) -/

/-- Recording of error `c` of the word whose bits 7:0 are `op`: the first error since reset or the last CLRERR is
kept (60_exceptions.md R97). -/
def State.recordError (s : State) (op : Byte) (c : ErrCode) : State :=
  if s.err then s else { s with err := true, errcode := c, errop := op }

/-- `raise Error(c)` in a command: it ends with the record and no other effect, and the block goes on
(00_scope.md R13; 60_exceptions.md R94, R97, R98). This is all the block has of taking an exception (R102). -/
def raiseError (op : Byte) (c : ErrCode) (s : State) : Outcome := .next (s.recordError op c)

/-- Clearing of the record: all the block has of a return (60_exceptions.md R103; 43_control.md R91). -/
def State.clearError (s : State) : State := { s with err := false, errcode := .noError, errop := 0 }

/-- The check of CFG that every array command makes first (60_exceptions.md R96, R99): NotConfigured, or go on. -/
def whenConfigured (i : Instr) (s : State) (k : Outcome) : Outcome :=
  if s.cfg then k else raiseError (opcodeOf i) .notConfigured s

/-! ## Access to the array (00_scope.md R13; 20_memory.md R47, R58) -/

/-- `MemRead(j, 1)`, then `k`. A byte that does not exist stops the model (log entry 8). -/
def memRead (j : Nat) (s : State) (k : Byte → Outcome) : Outcome :=
  if j < s.nbytesMax then k (s.array.read j) else .fault (.noSuchArrayByte j)

/-- `MemWrite(j, 1, v)`, then `k`. A byte that does not exist stops the model (log entry 8). -/
def memWrite (j : Nat) (v : Byte) (s : State) (k : State → Outcome) : Outcome :=
  if j < s.nbytesMax then k (s.setArray (s.array.write j v)) else .fault (.noSuchArrayByte j)

/-- The read-modify-write of one byte that SETB, SETH and ORBYTE do (20_memory.md R58), then `k`. -/
def orIntoByte (j : Nat) (v : Byte) (s : State) (k : State → Outcome) : Outcome :=
  memRead j s fun b => memWrite j (b ||| v) s k

/-- Bit `i` set and IDX written: the body of SETB and SETH (40_bitfield.md R74, 41_reduction.md R83). -/
def setBitOp (i : Nat) (s : State) : Outcome :=
  orIntoByte (i / 8) (bitMask i) s fun t => .next (t.setIdx i)

/-- RESULT read from bit `i` and IDX written: the body of GETB and GETH (40_bitfield.md R75, 41_reduction.md R84). -/
def getBitOp (i : Nat) (s : State) : Outcome :=
  memRead (i / 8) s fun b => .next ((s.setResult (bitIn b i)).setIdx i)

/-! ## Reset (10_state.md R42, R43; 70_reset_and_hazards.md R111) -/

/-- The block after reset is asserted and released: every register at its reset value, CAP the constant it is, the
array unspecified, which is a new draw. The host's own fields stay (log entry 13). -/
def State.afterReset (s : State) : State :=
  { State.reset with cap := s.cap, array := ⟨[], 0, s.array.draw + 1⟩, host := s.host, seen := s.seen }

end Sys2Proof.Machine
end

