-- ==== Sys2Proof/Machine/Operands.lean ====
section
/-! DEFINITION. The operand forms of the commands (30_encoding.md R63), the reduction mode's bits and the reduction
(10_state.md R22; 41_reduction.md R79). -/

namespace Sys2Proof.Machine

/-- *size* (INIT): `uint(OPERAND[127:0])`. -/
def sizeOperand (s : State) : Nat := s.operand.toNat

/-- *bit index* (SETB, GETB): `uint(OPERAND[127:0])`. -/
def bitIndex (s : State) : Nat := s.operand.toNat

/-- *byte index* (RDBYTE, ORBYTE): `uint(OPERAND[127:0])`. -/
def byteIndex (s : State) : Nat := s.operand.toNat

/-- *data byte* (ORBYTE): `DATA[7:0]`. -/
def dataByte (s : State) : Byte := s.data

/-- The value of CTRL bits 1:0 for a mode (10_state.md R22). -/
def HMode.toBits : HMode → BitVec 2
  | .u32 => 0
  | .s32 => 1
  | .u128 => 2
  | .s128 => 3

/-- The mode that CTRL bits 1:0 select: any of the four values is legal (10_state.md R21, R22). -/
def HMode.ofBits (b : BitVec 2) : HMode :=
  match b.toNat with
  | 0 => .u32
  | 1 => .s32
  | 2 => .u128
  | _ => .s128

/-- *hash value* (REDUCE, SETH, GETH): OPERAND read under the mode, an integer (41_reduction.md R79; `sint_N` is the
two's-complement value, 00_scope.md R12). -/
def hashValue (m : HMode) (x : Quad) : Int :=
  match m with
  | .u32 => (x.extractLsb' 0 32).toNat
  | .s32 => (x.extractLsb' 0 32).toInt
  | .u128 => x.toNat
  | .s128 => x.toInt

/-- `red(OPERAND, HMODE, SIZE) = h mod SIZE`, floor modulo, exact (41_reduction.md R79; 00_scope.md R12). -/
def red (x : Quad) (m : HMode) (size : Nat) : Nat := ((hashValue m x).fmod size).toNat

/-- The index that REDUCE, SETH and GETH reduce to in a state. -/
def hashIndex (s : State) : Nat := red s.operand s.hmode s.size.toNat

end Sys2Proof.Machine
end

