-- ==== Sys2Proof/Machine/BitArray.lean ====
section
/-! DEFINITION. The meanings of INIT, SETB and GETB (40_bitfield.md). -/

namespace Sys2Proof.Machine

/-- INIT: a zero-filled array of `n` bits, or InvalidParameters (40_bitfield.md R73). -/
def execInit (s : State) : Outcome :=
  if sizeOperand s = 0 ∨ s.cap.toNat < sizeOperand s then raiseError (opcodeOf .init) .invalidParameters s
  else .next ((s.setArray (s.array.zeroFill (ceil8 (sizeOperand s)))).configure (sizeOperand s))

/-- SETB: set bit `i` to 1 (40_bitfield.md R74). -/
def execSetb (s : State) : Outcome :=
  whenConfigured .setb s <|
    if s.size.toNat ≤ bitIndex s then raiseError (opcodeOf .setb) .indexOutOfRange s
    else setBitOp (bitIndex s) s

/-- GETB: read bit `i` into STATUS.RESULT (40_bitfield.md R75). -/
def execGetb (s : State) : Outcome :=
  whenConfigured .getb s <|
    if s.size.toNat ≤ bitIndex s then raiseError (opcodeOf .getb) .indexOutOfRange s
    else getBitOp (bitIndex s) s

end Sys2Proof.Machine
end

