-- ==== Sys2Proof/Machine/ByteView.lean ====
section
/-! DEFINITION. The meanings of RDBYTE and ORBYTE (42_byte_access.md). -/

namespace Sys2Proof.Machine

/-- RDBYTE: array byte `j` into DATA (42_byte_access.md R87). -/
def execRdbyte (s : State) : Outcome :=
  whenConfigured .rdbyte s <|
    if s.bytes.toNat ≤ byteIndex s then raiseError (opcodeOf .rdbyte) .indexOutOfRange s
    else memRead (byteIndex s) s fun b => .next (s.setData b)

/-- ORBYTE: DATA ORed into array byte `j` (42_byte_access.md R88). -/
def execOrbyte (s : State) : Outcome :=
  whenConfigured .orbyte s <|
    if s.bytes.toNat ≤ byteIndex s then raiseError (opcodeOf .orbyte) .indexOutOfRange s
    else orIntoByte (byteIndex s) (dataByte s) s fun t => .next t

end Sys2Proof.Machine
end

