-- ==== Sys2Proof/Machine/Control.lean ====
section
/-! DEFINITION. The meanings of NOP and CLRERR, and of a word that is no command (43_control.md). -/

namespace Sys2Proof.Machine

/-- NOP: no operation (43_control.md R90). -/
def execNop (s : State) : Outcome := .next s

/-- CLRERR: clear the error record (43_control.md R91). -/
def execClrerr (s : State) : Outcome := .next s.clearError

/-- An illegal word `w`: error IllegalCommand with ERROP recorded as `w[7:0]`, whatever CFG is (43_control.md R92;
60_exceptions.md R99). -/
def execIllegal (w : Word) (s : State) : Outcome := raiseError (opcField w) .illegalCommand s

end Sys2Proof.Machine
end

