-- ==== Sys2Proof/Machine/Reduction.lean ====
section
/-! DEFINITION. The meanings of REDUCE, SETH and GETH (41_reduction.md). -/

namespace Sys2Proof.Machine

/-- REDUCE: the reduced index into IDX, the array untouched (41_reduction.md R82). -/
def execReduce (s : State) : Outcome := whenConfigured .reduce s <| .next (s.setIdx (hashIndex s))

/-- SETH: reduce the hash and set that bit (41_reduction.md R83). -/
def execSeth (s : State) : Outcome := whenConfigured .seth s <| setBitOp (hashIndex s) s

/-- GETH: reduce the hash and read that bit into STATUS.RESULT (41_reduction.md R84). -/
def execGeth (s : State) : Outcome := whenConfigured .geth s <| getBitOp (hashIndex s) s

end Sys2Proof.Machine
end

