-- ==== Sys2Proof/Machine/Dispatch.lean ====
section
/-! DEFINITION. One arm for each command (30_encoding.md R64). -/

namespace Sys2Proof.Machine

def exec (i : Instr) (s : State) : Host.Outcome State Fault Refusal :=
  match i with
  | .nop => Sys2Proof.Machine.execNop s
  | .init => Sys2Proof.Machine.execInit s
  | .setb => Sys2Proof.Machine.execSetb s
  | .getb => Sys2Proof.Machine.execGetb s
  | .reduce => Sys2Proof.Machine.execReduce s
  | .seth => Sys2Proof.Machine.execSeth s
  | .geth => Sys2Proof.Machine.execGeth s
  | .rdbyte => Sys2Proof.Machine.execRdbyte s
  | .orbyte => Sys2Proof.Machine.execOrbyte s
  | .clrerr => Sys2Proof.Machine.execClrerr s

end Sys2Proof.Machine
end

