-- ==== Sys2Proof/Machine/Flags.lean ====
section
/-! DEFINITION. The register words that gather fields: STATUS, CTRL and DATA as a read returns them (10_state.md R21,
R23 to R26, R28, R35). The flags themselves are written by Ops.lean's updates. -/

namespace Sys2Proof.Machine

/-- The number of an error code (60_exceptions.md R95). -/
def ErrCode.toBits : ErrCode → BitVec 4
  | .noError => 0
  | .invalidParameters => 1
  | .indexOutOfRange => 2
  | .illegalCommand => 3
  | .notConfigured => 4

/-- STATUS as it reads: bits 31:16 reserved, 15:8 ERROP, 7:4 ERRCODE, 3 reserved, 2 ERR, 1 RESULT, 0 CFG; reserved
bits read 0 (10_state.md R23, R35). -/
def statusWord (s : State) : Word :=
  0#16 ++ s.errop ++ s.errcode.toBits ++ 0#1 ++ BitVec.ofBool s.err ++ BitVec.ofBool s.result ++ BitVec.ofBool s.cfg

/-- CTRL as it reads: bits 31:2 reserved, 1:0 HMODE (10_state.md R21, R35). -/
def ctrlWord (s : State) : Word := 0#30 ++ s.hmode.toBits

/-- DATA as it reads: bits 31:8 reserved, 7:0 DATA (10_state.md R28, R35). -/
def dataWord (s : State) : Word := 0#24 ++ s.data

end Sys2Proof.Machine
end

