-- ==== Sys2Proof/Machine/Window.lean ====
section
/-! DEFINITION. The register window: the map of offsets to registers, and reading and writing a register
(10_state.md R20 to R36; 20_memory.md R46, R50). -/

namespace Sys2Proof.Machine

/-- The 128-bit registers (10_state.md R29 to R33). -/
inductive WideReg where
  | operand
  | size
  | bytes
  | idx
  | cap
deriving DecidableEq, Repr

/-- The 32-bit registers of the window (10_state.md R20); `wide x k` is word `k` of a 128-bit register (R34). -/
inductive Reg where
  | ctrl
  | status
  | cmd
  | data
  | wide (x : WideReg) (k : Fin 4)
deriving DecidableEq, Repr

/-- The offset of word 0 of a 128-bit register (10_state.md R20). -/
def WideReg.base : WideReg → Nat
  | .operand => 0x10
  | .size => 0x20
  | .bytes => 0x30
  | .idx => 0x40
  | .cap => 0x50

/-- The offset of a register (10_state.md R20, R34). -/
def Reg.offset : Reg → Offset
  | .ctrl => 0x00
  | .status => 0x04
  | .cmd => 0x08
  | .data => 0x0C
  | .wide x k => BitVec.ofNat 8 (x.base + 4 * k.val)

/-- The register at an offset; none where the window is unmapped or the offset is no multiple of 4 (10_state.md R20;
20_memory.md R52, R53). -/
def Reg.ofOffset (off : Offset) : Option Reg :=
  match off.toNat with
  | 0x00 => some .ctrl
  | 0x04 => some .status
  | 0x08 => some .cmd
  | 0x0C => some .data
  | 0x10 => some (.wide .operand 0)
  | 0x14 => some (.wide .operand 1)
  | 0x18 => some (.wide .operand 2)
  | 0x1C => some (.wide .operand 3)
  | 0x20 => some (.wide .size 0)
  | 0x24 => some (.wide .size 1)
  | 0x28 => some (.wide .size 2)
  | 0x2C => some (.wide .size 3)
  | 0x30 => some (.wide .bytes 0)
  | 0x34 => some (.wide .bytes 1)
  | 0x38 => some (.wide .bytes 2)
  | 0x3C => some (.wide .bytes 3)
  | 0x40 => some (.wide .idx 0)
  | 0x44 => some (.wide .idx 1)
  | 0x48 => some (.wide .idx 2)
  | 0x4C => some (.wide .idx 3)
  | 0x50 => some (.wide .cap 0)
  | 0x54 => some (.wide .cap 1)
  | 0x58 => some (.wide .cap 2)
  | 0x5C => some (.wide .cap 3)
  | _ => none

/-- The value of a 128-bit register. -/
def WideReg.get (x : WideReg) (s : State) : Quad :=
  match x with
  | .operand => s.operand
  | .size => s.size
  | .bytes => s.bytes
  | .idx => s.idx
  | .cap => s.cap

/-- What a read of a register returns; it has no effect (10_state.md R20 to R35; 20_memory.md R54). CMD reads 0 (R27). -/
def readReg (r : Reg) (s : State) : Word :=
  match r with
  | .ctrl => ctrlWord s
  | .status => statusWord s
  | .cmd => 0
  | .data => dataWord s
  | .wide x k => wordOf (x.get s) k

/-- What a write of `w` to a register other than CMD stores: CTRL, DATA and OPERAND words take their bits, and a
read-only register ignores the write (10_state.md R21, R28, R34, R35, R36). The write of CMD is Bus.lean's. -/
def writeReg (r : Reg) (w : Word) (s : State) : State :=
  match r with
  | .ctrl => s.setMode (HMode.ofBits (w.extractLsb' 0 2))
  | .data => s.setData (w.extractLsb' 0 8)
  | .wide .operand k => s.setOperand (setWordOf s.operand k w)
  | .wide .size _ | .wide .bytes _ | .wide .idx _ | .wide .cap _ => s
  | .status => s
  | .cmd => s

/-- The window as bytes: the byte at offset `a` is bits `8b+7 : 8b` of the register at `a - b`, `b = a mod 4`,
little-endian (20_memory.md R50). None where the window is unmapped. -/
def windowByte (a : Offset) (s : State) : Option Byte :=
  (Reg.ofOffset (BitVec.ofNat 8 (a.toNat / 4 * 4))).map fun r => (readReg r s).extractLsb' (8 * (a.toNat % 4)) 8

end Sys2Proof.Machine
end

