-- ==== Sys2Proof/Machine/Bus.lean ====
section
/-! DEFINITION. What one host event does: a read, a write, a command, a bus error, reset (20_memory.md R45 to R56;
60_exceptions.md R100; 70_reset_and_hazards.md R111, R116). -/

namespace Sys2Proof.Machine

/-- The register that an access of a width at an offset reaches: only an aligned 32-bit access to a mapped offset
reaches one (20_memory.md R52, R53). -/
def target (width : Width) (off : Offset) : Option Reg :=
  if width = .bits 32 ∧ off.toNat % 4 = 0 then Reg.ofOffset off else none

/-- The write of `w` to CMD: the command `w` executes at once and completely (10_state.md R27; 30_encoding.md R65;
43_control.md R92; 70_reset_and_hazards.md R116). -/
def execWord (w : Word) (s : State) : Outcome :=
  match decode w with
  | .ok i => exec i s
  | .error _ => execIllegal w s

/-- One host event, a whole atomic step (20_memory.md R46, R56). A bus error is a response and changes no state of
the block (R52, R53; log entry 3). -/
def perform (e : HostEvent) (s : State) : Outcome :=
  match e with
  | .read width off =>
    match target width off with
    | some r => .next (s.respond (.data (readReg r s)))
    | none => .next (s.respond .busError)
  | .write width off w =>
    match target width off with
    | some .cmd => execWord w (s.respond .done)
    | some r => .next (writeReg r w (s.respond .done))
    | none => .next (s.respond .busError)
  | .reset => .next s.afterReset

/-- The offset in the window of a bus address; none outside the window: such an access does not reach the block
(20_memory.md R46, R55; log entry 5). -/
def offsetOf (addr : Nat) : Option Offset :=
  if Config.base ≤ addr ∧ addr < Config.base + 256 then some (BitVec.ofNat 8 (addr - Config.base)) else none

/-- The aligned 32-bit write of `w` to CMD (offset 0x08): the access that runs a command (10_state.md R20, R27). -/
def commandAccess (w : Word) : HostEvent := .write (.bits 32) 0x08 w

end Sys2Proof.Machine
end

