-- ==== Sys2Proof/Machine/Step.lean ====
section
/-! DEFINITION. One step of the block: the next host event in issue order (20_memory.md R46, R56), and where a
program's next word is put (log entry 12). -/

namespace Sys2Proof.Machine

/-- One step: the first event still to come is performed. With none to come nothing happens, since every effect of
the block is the effect of a host access or of reset (00_scope.md R2; log entry 1, DESIGN CHOICE, safe). -/
def step (s : State) : Host.Outcome State Fault Refusal :=
  match s.host with
  | [] => .next s
  | e :: rest => perform e (s.withHost rest)

/-- `s` with the write of a word to CMD as the very next host event: the block selects its program by the host's
accesses and fetches none (10_state.md R19; log entry 12). -/
def State.withFetchWord (s : State) (nbits w : Nat) : State :=
  s.withHost (commandAccess (BitVec.ofNat 32 (w % 2 ^ nbits)) :: s.host)

end Sys2Proof.Machine
end

