-- ==== Sys2Proof/Machine/Assembly.lean ====
section
/-! DEFINITION. Host assembly and its expansion to bus accesses, the encoding of a host program (30_encoding.md R68 to
R72), and performing a list of accesses in issue order (20_memory.md R56). -/

namespace Sys2Proof.Machine

/-- The 32-bit read of an offset, `R <off>` (30_encoding.md R68). -/
def read32 (off : Offset) : HostEvent := .read (.bits 32) off

/-- The 32-bit write of a value at an offset, `W <off>, <value>` (30_encoding.md R68). -/
def write32 (off : Offset) (w : Word) : HostEvent := .write (.bits 32) off w

/-- A line of host assembly (30_encoding.md R68 to R71). A register name stands for its offset (`Reg.offset`). -/
inductive HostLine where
  /-- `W <off>, <value>` (R68). -/
  | writeAt (off : Offset) (v : Nat)
  /-- `R <off>` (R68). -/
  | readAt (off : Offset)
  /-- A command mnemonic alone: `W CMD, <OPC>` (R68). -/
  | command (i : Instr)
  /-- `LDOP v` (R69). -/
  | ldop (v : Nat)
  /-- `LDOP32 v` (R69). -/
  | ldop32 (v : Nat)
  /-- `INIT n`, `SETB i`, `GETB i`, `REDUCE h`, `SETH h`, `GETH h`, `RDBYTE j` (R70). -/
  | op (i : Instr) (v : Nat)
  /-- `ORBYTE j, b` (R70). -/
  | orbyte (j b : Nat)
  /-- `MODE m` (R70). -/
  | mode (m : Nat)
  /-- `LDDATA b` (R70). -/
  | lddata (b : Nat)
  /-- `RD <reg>` (R71); its value is `rdValue`. -/
  | rd (r : Reg)
  /-- `RD128 <X>` (R71); its value is `rd128Value`. -/
  | rd128 (x : WideReg)
  /-- `RESULT?` (R71): the read of STATUS, whose bit 1 is its value (`resultValue`). -/
  | resultQuery
deriving DecidableEq, Repr

/-- The numbers of a line are in the ranges the spec gives them (30_encoding.md R68 to R70). -/
def HostLine.wellFormed : HostLine → Bool
  | .writeAt _ v => WellFormed.word v
  | .readAt _ => true
  | .command i => WellFormed.instr i
  | .ldop v => WellFormed.quad v
  | .ldop32 v => WellFormed.word v
  | .op i v => WellFormed.takesOperand i && WellFormed.quad v
  | .orbyte j b => WellFormed.quad j && WellFormed.byte b
  | .mode m => WellFormed.mode m
  | .lddata b => WellFormed.byte b
  | .rd _ => true
  | .rd128 _ => true
  | .resultQuery => true

/-- The four writes of `LDOP v`, in that order (30_encoding.md R69). -/
def ldopEvents (v : Nat) : List HostEvent :=
  [write32 0x10 (wordOf (BitVec.ofNat 128 v) 0), write32 0x14 (wordOf (BitVec.ofNat 128 v) 1),
   write32 0x18 (wordOf (BitVec.ofNat 128 v) 2), write32 0x1C (wordOf (BitVec.ofNat 128 v) 3)]

/-- The accesses a line expands to (30_encoding.md R68 to R71). -/
def HostLine.expand : HostLine → List HostEvent
  | .writeAt off v => [write32 off (BitVec.ofNat 32 v)]
  | .readAt off => [read32 off]
  | .command i => [commandAccess (encode i)]
  | .ldop v => ldopEvents v
  | .ldop32 v => [write32 0x10 (BitVec.ofNat 32 v)]
  | .op i v => ldopEvents v ++ [commandAccess (encode i)]
  | .orbyte j b => write32 0x0C (BitVec.ofNat 32 b) :: (ldopEvents j ++ [commandAccess (encode .orbyte)])
  | .mode m => [write32 0x00 (BitVec.ofNat 32 m)]
  | .lddata b => [write32 0x0C (BitVec.ofNat 32 b)]
  | .rd r => [read32 r.offset]
  | .rd128 x =>
    [read32 (Reg.wide x 0).offset, read32 (Reg.wide x 1).offset, read32 (Reg.wide x 2).offset,
     read32 (Reg.wide x 3).offset]
  | .resultQuery => [read32 0x04]

/-! ## The values of the read lines (30_encoding.md R71), from what their reads returned -/

/-- The words a host's reads returned, in order. -/
def dataWords (rs : List Response) : List Word :=
  rs.filterMap fun r => match r with | .data w => some w | _ => none

/-- The value of `RD <reg>`: the word its one read returned (30_encoding.md R71). -/
def rdValue (rs : List Response) : Option Word :=
  match dataWords rs with
  | [w] => some w
  | _ => none

/-- The value of `RD128 <X>`: its four results, X0 first, assembled as `X3 ++ X2 ++ X1 ++ X0` (30_encoding.md R71;
10_state.md R34). -/
def rd128Value (rs : List Response) : Option Quad :=
  match dataWords rs with
  | [x0, x1, x2, x3] => some (quadOf x3 x2 x1 x0)
  | _ => none

/-- Bit 1 of a STATUS word, RESULT (10_state.md R23, R25). -/
def resultBit (status : Word) : Bool := status.getLsbD 1

/-- The value of `RESULT?`: bit 1 of the STATUS word it read (30_encoding.md R71). -/
def resultValue (rs : List Response) : Option Bool := (rdValue rs).map resultBit

/-- The encoding of a host program: its bus transcript (30_encoding.md R72). -/
def transcript (ls : List HostLine) : List HostEvent := ls.flatMap HostLine.expand

/-- The bits a hash value stands for under a mode: a negative number for its two's-complement bits, of 32 bits in the
32-bit modes (30_encoding.md R68: `-1` in S32 is 0xFFFFFFFF) and of 128 bits in the others; R68 shows S32 only, the width
in the other modes is the model's reading (DEDUCED, log entry 17). -/
def hashBits (m : HMode) (h : Int) : Nat :=
  match m with
  | .u32 | .s32 => (BitVec.ofInt 32 h).toNat
  | .u128 | .s128 => (BitVec.ofInt 128 h).toNat

/-- The hash values a mode reads (41_reduction.md R79). -/
def hashInRange (m : HMode) (h : Int) : Bool :=
  match m with
  | .u32 => 0 ≤ h && h < 2 ^ 32
  | .s32 => -(2 ^ 31) ≤ h && h < 2 ^ 31
  | .u128 => 0 ≤ h && h < 2 ^ 128
  | .s128 => -(2 ^ 127) ≤ h && h < 2 ^ 127

/-- The state after a sequence of accesses: each applied in issue order (20_memory.md R56). -/
def performAll : List HostEvent → State → Outcome
  | [], s => .next s
  | e :: es, s =>
    match perform e s with
    | .next t => performAll es t
    | .fault f => .fault f
    | .refused r => .refused r

end Sys2Proof.Machine
end

