-- ==== Sys2Proof/Machine/Protocol.lean ====
section
/-! DEFINITION. The host's sequences that give the source's boot, `add`, `lookup`, `save` and `load`
(70_reset_and_hazards.md R114, R120 to R123). They are host software, not the block (00_scope.md R5): the hash values
HASH_FN returns are an argument (R10; log entry 16), and so are a file's bytes. -/

namespace Sys2Proof.Machine

/-- Boot: read CAP, choose the mode, write the size and INIT, read STATUS (70_reset_and_hazards.md R114). R114 leaves the
read of CAP optional and lets the mode be written after the size; that CAP is read and the mode written first is the
model's choice of one of the orders allowed (DESIGN CHOICE, log entry 20). -/
def bootLines (m n : Nat) : List HostLine := [.rd128 .cap, .mode m, .op .init n, .rd .status]

/-- `add`: for each seed's hash value in order, LDOP and SETH; then STATUS is read (70_reset_and_hazards.md R120). In U32
and S32 the rule lets the host write a hash by LDOP or by LDOP32; LDOP in every mode is the model's choice (DESIGN CHOICE,
log entry 19). -/
def addLines (hashes : List Nat) : List HostLine := hashes.map (HostLine.op .seth) ++ [.rd .status]

/-- What `lookup` gives the host (70_reset_and_hazards.md R121), with the state it leaves. -/
inductive LookupResult where
  /-- Every seed gave RESULT = 1. -/
  | present (s : State)
  /-- Some seed gave RESULT = 0; no further GETH was issued. -/
  | absent (s : State)
  /-- ERR = 1: the lookup fails. -/
  | failed (s : State)
  /-- The block gave no answer (the model stopped). -/
  | noAnswer
deriving DecidableEq, Repr

/-- `lookup`: for each seed's hash value in order, LDOP, GETH and a read of STATUS, with the short-circuit
(70_reset_and_hazards.md R121). LDOP in every mode, as in `addLines`, is the model's choice (DESIGN CHOICE, log entry 19). -/
def lookup : List Nat → State → LookupResult
  | [], s => .present s
  | h :: hs, s =>
    match performAll (transcript [.op .geth h, .rd .status]) s with
    | .next t =>
      match t.seen.getLast? with
      | some (.data w) =>
        if w.getLsbD 2 then .failed t else if resultBit w then lookup hs t else .absent t
      | _ => .noAnswer
    | _ => .noAnswer

/-- A 16-byte unsigned little-endian field of the file (70_reset_and_hazards.md R122). -/
def le16 (v : Nat) : List Byte := (List.range 16).map fun k => BitVec.ofNat 8 (v / 2 ^ (8 * k))

/-- The number a little-endian field holds. -/
def ofLe : List Byte → Nat
  | [] => 0
  | b :: bs => b.toNat + 256 * ofLe bs

/-- `save`'s accesses: RD128 SIZE, then RDBYTE and a read of DATA for each byte index below `n` = BYTES
(70_reset_and_hazards.md R122). -/
def saveLines (n : Nat) : List HostLine :=
  .rd128 .size :: (List.range n).flatMap fun j => [.op .rdbyte j, .rd .data]

/-- The file `save` writes from what the reads of `saveLines` returned: size, hashcount, buffer
(70_reset_and_hazards.md R122). -/
def fileOf (hashcount : Nat) (rs : List Response) : List Byte :=
  ((dataWords rs).take 4).flatMap bytesOf ++ le16 hashcount ++ ((dataWords rs).drop 4).map fun w => w.extractLsb' 0 8

/-- What `load` gives the host (70_reset_and_hazards.md R123). `IOError`, a file that cannot be read, is before it. -/
inductive LoadResult where
  /-- Loaded, with the host's hashcount and the state it leaves. -/
  | loaded (hashcount : Nat) (s : State)
  /-- `CorruptData`; nothing was issued to the block. -/
  | corruptData
  /-- INIT failed: the size is above NBITS_MAX. -/
  | invalidParameters (s : State)
  /-- The block gave no answer (the model stopped). -/
  | noAnswer
deriving DecidableEq, Repr

/-- The checks of `load` on a file's bytes: at least 32, `size` and `hashcount` not 0, and `ceil(size/8)` bytes after
the header (70_reset_and_hazards.md R123; 90_conflicts.md C4). -/
def fileOk (file : List Byte) : Bool :=
  32 ≤ file.length && ofLe (file.take 16) != 0 && ofLe ((file.drop 16).take 16) != 0
    && file.length - 32 == ceil8 (ofLe (file.take 16))

/-- `load`'s fill: ORBYTE of each byte at its index (70_reset_and_hazards.md R123). -/
def fillLines (buffer : List Byte) : List HostLine := buffer.mapIdx fun j b => .orbyte j b.toNat

/-- `load`: the checks, INIT with the file's size, STATUS, then the fill (70_reset_and_hazards.md R123). -/
def load (file : List Byte) (s : State) : LoadResult :=
  if fileOk file then
    match performAll (transcript [.op .init (ofLe (file.take 16)), .rd .status]) s with
    | .next t =>
      match t.seen.getLast? with
      | some (.data w) =>
        if w.getLsbD 2 ∧ w.extractLsb' 4 4 = ErrCode.invalidParameters.toBits then .invalidParameters t
        else
          match performAll (transcript (fillLines (file.drop 32))) t with
          | .next u => .loaded (ofLe ((file.drop 16).take 16)) u
          | _ => .noAnswer
      | _ => .noAnswer
    | _ => .noAnswer
  else .corruptData

end Sys2Proof.Machine
end

