-- ==== Sys2Proof/Safety.lean ====
section
/-! DEFINITION. The terms claims use: the invariant of the block, when a command fails, the lifetime of a filter, and
when two states look the same to the host (10_state.md R38, R39, R43; 60_exceptions.md R96, R99). -/

namespace Sys2Proof.Machine

/-- The array is configured as CFG says: `1 <= SIZE <= NBITS_MAX`, `BYTES = ceil8(SIZE)`, `BYTES <= NBYTES_MAX`, or
SIZE = BYTES = 0 (10_state.md R39). -/
abbrev State.sizesHold (s : State) : Prop :=
  (s.cfg = true → 1 ≤ s.size.toNat ∧ s.size.toNat ≤ s.cap.toNat ∧ s.bytes.toNat = ceil8 s.size.toNat
    ∧ s.bytes.toNat ≤ s.nbytesMax) ∧
  (s.cfg = false → s.size = 0 ∧ s.bytes = 0)

/-- IDX is a valid bit index once an array exists, and IDX and RESULT are 0 before (10_state.md R25, R32; 41_reduction.md
R80). -/
abbrev State.indexHolds (s : State) : Prop :=
  (s.cfg = true → s.idx.toNat < s.size.toNat) ∧ (s.cfg = false → s.idx = 0 ∧ s.result = false)

/-- The error record is empty exactly while ERR = 0 (10_state.md R26; 60_exceptions.md R95, R97). -/
abbrev State.recordHolds (s : State) : Prop :=
  (s.err = false → s.errcode = .noError ∧ s.errop = 0) ∧ (s.err = true → s.errcode ≠ .noError)

/-- The array is held in canonical form, every reachable byte has been zero-filled since reset (10_state.md R43), and
nothing is listed outside the bytes that exist (R37). -/
abbrev State.arrayHolds (s : State) : Prop :=
  s.array.wf ∧ (s.cfg = true → s.bytes.toNat ≤ s.array.filled) ∧ s.array.filled ≤ s.nbytesMax
    ∧ ∀ c ∈ s.array.cells, c.1 < s.array.filled

/-- The invariant of the block: the capacity is at least 1 (00_scope.md R6), and the four parts above. -/
abbrev State.Inv (s : State) : Prop :=
  1 ≤ s.cap.toNat ∧ s.sizesHold ∧ s.indexHolds ∧ s.recordHolds ∧ s.arrayHolds

/-- The error a command reports, if any: the table of 60_exceptions.md R96 in the order of R99. -/
def errorOf (i : Instr) (s : State) : Option ErrCode :=
  match i with
  | .nop | .clrerr => none
  | .init => if s.operand.toNat = 0 ∨ s.cap.toNat < s.operand.toNat then some .invalidParameters else none
  | .setb | .getb =>
    if s.cfg = false then some .notConfigured
    else if s.size.toNat ≤ s.operand.toNat then some .indexOutOfRange else none
  | .reduce | .seth | .geth => if s.cfg = false then some .notConfigured else none
  | .rdbyte | .orbyte =>
    if s.cfg = false then some .notConfigured
    else if s.bytes.toNat ≤ s.operand.toNat then some .indexOutOfRange else none

/-- The error a CMD word reports, if any: IllegalCommand on the word alone, before all else (60_exceptions.md R99). -/
def errorOfWord (w : Word) (s : State) : Option ErrCode :=
  match decode w with
  | .ok i => errorOf i s
  | .error _ => some .illegalCommand

/-- `k` steps of the block, stopping at a fault or a refusal (the run of Host.Core on the block,
`Sys2Proof.Laws.runSteps_eq_run`). -/
def runSteps : Nat → State → Outcome
  | 0, s => .next s
  | k + 1, s =>
    match step s with
    | .next t => runSteps k t
    | .fault f => .fault f
    | .refused r => .refused r

/-- The next event ends the filter's lifetime: a reset, or a CMD write of an INIT that succeeds
(70_reset_and_hazards.md R124). -/
def State.endsLifetime (s : State) : Bool :=
  match s.host with
  | .reset :: _ => true
  | e :: _ => e == commandAccess (encode .init) && (errorOf .init s).isNone
  | [] => false

/-- The next `k` steps stay in one filter's lifetime. -/
def State.withinLifetime : Nat → State → Prop
  | 0, _ => True
  | k + 1, s => s.endsLifetime = false ∧ ∀ t, step s = .next t → State.withinLifetime k t

/-- Two states the host cannot tell apart: the same but for the array, and there the same in every reachable byte
(10_state.md R43; 20_memory.md R47). -/
def State.looksLike (s t : State) : Prop :=
  { s with array := t.array } = t ∧
    (s.cfg = true → ∀ j, j < s.bytes.toNat → s.array.read j = t.array.read j)

/-- Two states that differ in the error record at most (60_exceptions.md R97, R104). -/
def State.sameButRecord (s t : State) : Prop :=
  { s with err := t.err, errcode := t.errcode, errop := t.errop } = t

/-- An access that keeps the host's duty of aligned 32-bit accesses to mapped offsets (70_reset_and_hazards.md R126). -/
def HostEvent.dutiful : HostEvent → Bool
  | .read width off => (target width off).isSome
  | .write width off _ => (target width off).isSome
  | .reset => true

end Sys2Proof.Machine
end

