-- ==== Sys2Proof/Certificates/Slice0/Obligations.lean ====
section
/-! DEFINITION. The statements for the provers: what the numbered rules of spec/ say the block does. -/

open Sys2Proof Sys2Proof.Machine

/-! ## Reset and the invariant -/

/-- 10_state.md R42: after reset the state is, field by field. The array's bytes are the free values of the draw in force
(R42 'unspecified, any value'; log entry 6), whatever the draw's number is. -/
def Obligations.ResetLeavesSpecValues : Prop :=
  State.reset.hmode = .u32 ∧ ctrlWord State.reset = 0 ∧ State.reset.cfg = false ∧ State.reset.result = false ∧
  State.reset.err = false ∧ State.reset.errcode = .noError ∧ State.reset.errop = 0 ∧ State.reset.data = 0 ∧
  State.reset.operand = 0 ∧ State.reset.size = 0 ∧ State.reset.bytes = 0 ∧ State.reset.idx = 0 ∧
  State.reset.cap.toNat = Config.nbitsMax ∧
  ∀ a, State.reset.array.read a = Config.sramByte State.reset.array.draw a

/-- 70_reset_and_hazards.md R111 with 10_state.md R33, R42, R43: the reset input, from any state, leaves every register at
its reset value, CAP as it is and the array unspecified. That the host's own lists stay and the draw advances is the
model's choice (log entries 6, 13). -/
def Obligations.ResetEventLeavesResetState : Prop :=
  ∀ (s : State) (rest : List HostEvent), s.host = .reset :: rest →
    ∃ t, step s = .next t ∧ t = { State.reset with cap := s.cap, array := t.array, host := rest, seen := s.seen } ∧
      ∀ a, t.array.read a = Config.sramByte t.array.draw a

/-- The invariant of the block holds at reset (10_state.md R39, R42, R43). -/
def Obligations.InvariantAtReset : Prop := State.reset.Inv

/-- The invariant of the block is kept by every step, from every state that meets it: the sizes of 10_state.md R39, IDX
within SIZE (R32, 41_reduction.md R80), the error record empty exactly while ERR = 0 (60_exceptions.md R97), the array in
canonical form with every reachable byte zero-filled since reset (R43). -/
def Obligations.InvariantKeptByEveryStep : Prop :=
  ∀ s t : State, s.Inv → step s = .next t → t.Inv

/-- 10_state.md R39: if CFG = 1 then `1 <= SIZE <= NBITS_MAX`, `BYTES = ceil8(SIZE)` and `BYTES <= NBYTES_MAX`; if CFG = 0
then SIZE = BYTES = 0; at reset and after every step. -/
def Obligations.SizesHeldAtEveryStep : Prop :=
  State.reset.sizesHold ∧ ∀ s t : State, s.sizesHold → step s = .next t →
    (t.cfg = true → 1 ≤ t.size.toNat ∧ t.size.toNat ≤ t.cap.toNat ∧ t.bytes.toNat = (t.size.toNat + 7) / 8 ∧
      t.bytes.toNat ≤ (t.cap.toNat + 7) / 8) ∧
    (t.cfg = false → t.size = 0 ∧ t.bytes = 0)

/-- 60_exceptions.md R94, with 10_state.md R39 and 20_memory.md R47: the block never halts. From every state that meets the
invariant the step answers a next state, so the model's one fault, a byte that does not exist, is never reached. -/
def Obligations.BlockNeverHalts : Prop :=
  ∀ s : State, s.Inv → ∃ t, step s = .next t

/-- Log entry 8, the model's own choice where 10_state.md R37 gives a byte at or above NBYTES_MAX no existence: from any
state whatever a command answers a next state or stops at a byte that does not exist, and is never refused; and it does stop
where the state, which no run reaches (R39), sends it to such a byte. -/
def Obligations.StopsOnlyWhereNoByteExists : Prop :=
  (∀ (i : Instr) (s : State), (∃ t, exec i s = .next t) ∨
    ∃ j, s.nbytesMax ≤ j ∧ exec i s = .fault (.noSuchArrayByte j)) ∧
  (∀ (i : Instr) (s : State), i = .setb ∨ i = .getb → s.cfg = true → s.operand.toNat < s.size.toNat →
    s.nbytesMax ≤ s.operand.toNat / 8 → exec i s = .fault (.noSuchArrayByte (s.operand.toNat / 8))) ∧
  (∀ (i : Instr) (s : State), i = .seth ∨ i = .geth → s.cfg = true → s.nbytesMax ≤ hashIndex s / 8 →
    exec i s = .fault (.noSuchArrayByte (hashIndex s / 8))) ∧
  (∀ (i : Instr) (s : State), i = .rdbyte ∨ i = .orbyte → s.cfg = true → s.operand.toNat < s.bytes.toNat →
    s.nbytesMax ≤ s.operand.toNat → exec i s = .fault (.noSuchArrayByte s.operand.toNat))

/-- 10_state.md R33: CAP, at offsets 0x50 to 0x5C, is the constant NBITS_MAX (00_scope.md R6), the same after reset and at
every time: no access of any kind writes it. -/
def Obligations.CapIsConstant : Prop :=
  State.reset.cap.toNat = Config.nbitsMax ∧ (1 ≤ Config.nbitsMax ∧ Config.nbitsMax < 2 ^ 128) ∧
  (∀ s t : State, step s = .next t → t.cap = s.cap) ∧
  (∀ (s : State) (k : Nat), k < 4 →
    (target (.bits 32) (BitVec.ofNat 8 (0x50 + 4 * k))).map (readReg · s) = some (s.cap.extractLsb' (32 * k) 32))

/-- 10_state.md R24: CFG, bit 0 of STATUS, is 0 after reset; a step sets it only by the CMD write of an INIT that succeeds,
and such an INIT does set it; only reset clears it; a failed INIT leaves it; and while it is 0 each of the seven array
commands fails with NotConfigured (60_exceptions.md R96). -/
def Obligations.CfgSetByInitClearedByReset : Prop :=
  State.reset.cfg = false ∧ (∀ s : State, (readReg .status s).getLsbD 0 = s.cfg) ∧
  (∀ s t : State, exec .init s = .next t →
    (1 ≤ s.operand.toNat ∧ s.operand.toNat ≤ s.cap.toNat → t.cfg = true) ∧
    (s.operand.toNat = 0 ∨ s.cap.toNat < s.operand.toNat → t.cfg = s.cfg)) ∧
  (∀ s t : State, step s = .next t → s.cfg = true → t.cfg = false → ∃ rest, s.host = .reset :: rest) ∧
  (∀ s t : State, step s = .next t → s.cfg = false → t.cfg = true →
    ∃ rest, s.host = .write (.bits 32) 0x08 0x00000001 :: rest ∧ 1 ≤ s.operand.toNat ∧ s.operand.toNat ≤ s.cap.toNat) ∧
  (∀ (s : State) (i : Instr), s.cfg = false → i ∈ [Instr.setb, .getb, .reduce, .seth, .geth, .rdbyte, .orbyte] →
    exec i s = .next (if s.err then s else { s with err := true, errcode := .notConfigured, errop := opcodeOf i }))

/-! ## Decoding and the step -/

/-- 30_encoding.md R64: the ten words of the opcode map decode to their commands; and words that are none are illegal. -/
def Obligations.OpcodeMapDecodes : Prop :=
  decode 0x00000000 = .ok .nop ∧ decode 0x00000001 = .ok .init ∧ decode 0x00000002 = .ok .setb ∧
  decode 0x00000003 = .ok .getb ∧ decode 0x00000004 = .ok .reduce ∧ decode 0x00000005 = .ok .seth ∧
  decode 0x00000006 = .ok .geth ∧ decode 0x00000007 = .ok .rdbyte ∧ decode 0x00000008 = .ok .orbyte ∧
  decode 0x00000009 = .ok .clrerr ∧
  decode 0x0000000A = .error .reservedOpcode ∧ decode 0x000000FF = .error .reservedOpcode ∧
  decode 0x00000102 = .error .mbzNotZero ∧ decode 0x80000001 = .error .mbzNotZero

/-- 30_encoding.md R65: a word selects the command whose OPC equals `w[7:0]` if and only if `w[31:8] = 0` and
`w[7:0] <= 0x09`; every other word is illegal and executes as 43_control.md R92 says; and the encoder gives back exactly the
word decoded. -/
def Obligations.DecodingIsExact : Prop :=
  ∀ w : Word,
    ((∃ i, decode w = .ok i) ↔ w.toNat / 256 = 0 ∧ w.toNat % 256 ≤ 9) ∧
    (∀ i, decode w = .ok i ↔ w = encode i) ∧
    (∀ i, decode w = .ok i → (opcodeOf i).toNat = w.toNat % 256) ∧
    decodeBytes (bytesOf w) = decode w ∧
    ((∀ i, decode w ≠ .ok i) → ∀ s : State,
      execWord w s = .next (s.recordError (BitVec.ofNat 8 w.toNat) .illegalCommand))

/-- A step runs the decoded command: a CMD write of a word that decodes to `i` is exec of `i` at the state with that event
taken and the write answered (10_state.md R27; 30_encoding.md R65; 70_reset_and_hazards.md R116); and `withFetchWord` puts
that very event first (log entry 12). -/
def Obligations.StepRunsDecodedCommand : Prop :=
  (∀ (s : State) (w : Word) (i : Instr) (rest : List HostEvent),
    s.host = .write (.bits 32) 0x08 w :: rest → decode w = .ok i →
      step s = exec i { s with host := rest, seen := s.seen ++ [.done] }) ∧
  (∀ (s : State) (w : Word) (i : Instr), decode w = .ok i →
    decodeTableWord 32 w.toNat = some i ∧
      step (s.withFetchWord 32 w.toNat) = exec i { s with seen := s.seen ++ [.done] })

/-- 43_control.md R92: an illegal word, `w[31:8] != 0` or `w[7:0] >= 0x0A`, whatever CFG is, records IllegalCommand with
ERROP = `w[7:0]` if no earlier error is recorded, and changes no other state. -/
def Obligations.IllegalWordOnlyRecords : Prop :=
  ∀ (s : State) (w : Word) (rest : List HostEvent),
    s.host = .write (.bits 32) 0x08 w :: rest → w.toNat / 256 ≠ 0 ∨ 0x0A ≤ w.toNat % 256 →
      step s = .next
        (if s.err then { s with host := rest, seen := s.seen ++ [.done] }
         else { s with host := rest, seen := s.seen ++ [.done], err := true, errcode := .illegalCommand,
                       errop := BitVec.ofNat 8 w.toNat })

/-- 20_memory.md R56: the state after a sequence of accesses is the state obtained by applying them in issue order. -/
def Obligations.SequenceAppliesInIssueOrder : Prop :=
  ∀ (es rest : List HostEvent) (s : State),
    runSteps es.length (s.withHost (es ++ rest)) = performAll es (s.withHost rest)

/-! ## Errors -/

/-- 60_exceptions.md R97, R98: a CMD word that fails with code `c` records ERR, `c` and its own bits 7:0 if nothing is
recorded yet, else keeps the earlier record, and writes nothing else. What fails, and with which code, is `errorOfWord`,
the table of R96 in the order of R99. -/
def Obligations.FailedCommandOnlyRecords : Prop :=
  ∀ (w : Word) (s : State) (c : ErrCode), errorOfWord w s = some c →
    execWord w s = .next
      (if s.err then s else { s with err := true, errcode := c, errop := BitVec.ofNat 8 w.toNat })

/-- 60_exceptions.md R96, R99: a command fails exactly when its condition of the table holds, with the one code that comes
first, IllegalCommand on the word alone, then NotConfigured, then the range; the word 0x00000102 with CFG = 0 is the example
of R99. -/
def Obligations.FailsExactlyOnItsConditions : Prop :=
  (∀ (w : Word) (s t : State), s.err = false → execWord w s = .next t →
    (t.err = true ↔ ∃ c, errorOfWord w s = some c) ∧ ∀ c, errorOfWord w s = some c → t.errcode = c) ∧
  (∀ s : State,
    errorOf .nop s = none ∧ errorOf .clrerr s = none ∧
    (errorOf .init s = some .invalidParameters ↔ s.operand.toNat = 0 ∨ s.cap.toNat < s.operand.toNat) ∧
    (∀ i, i ∈ [Instr.setb, .getb, .reduce, .seth, .geth, .rdbyte, .orbyte] →
      (errorOf i s = some .notConfigured ↔ s.cfg = false)) ∧
    (∀ i, i = .setb ∨ i = .getb →
      (errorOf i s = some .indexOutOfRange ↔ s.cfg = true ∧ s.size.toNat ≤ s.operand.toNat)) ∧
    (∀ i, i = .rdbyte ∨ i = .orbyte →
      (errorOf i s = some .indexOutOfRange ↔ s.cfg = true ∧ s.bytes.toNat ≤ s.operand.toNat)) ∧
    (∀ i, i = .reduce ∨ i = .seth ∨ i = .geth → s.cfg = true → errorOf i s = none) ∧
    (∀ i c, errorOf i s = some c → c ≠ .noError ∧ c ≠ .illegalCommand ∧ (i = .init ↔ c = .invalidParameters) ∧
      (c = .indexOutOfRange → i ∈ [Instr.setb, .getb, .rdbyte, .orbyte]))) ∧
  (∀ s : State, s.cfg = false → errorOfWord 0x00000102 s = some .illegalCommand)

/-- 60_exceptions.md R104: ERR = 1 does not block. Two states that differ only in the error record take the same command to
states that differ only in the error record. -/
def Obligations.ErrorRecordDoesNotBlock : Prop :=
  ∀ (i : Instr) (s t s' : State), s.sameButRecord t → exec i s = .next s' →
    ∃ t', exec i t = .next t' ∧ s'.sameButRecord t'

/-! ## The commands -/

/-- 43_control.md R90: NOP, word 0x00000000, leaves the same state. -/
def Obligations.NopLeavesTheState : Prop :=
  decode 0x00000000 = .ok .nop ∧ ∀ s : State, exec .nop s = .next s

/-- 43_control.md R91: CLRERR, word 0x00000009, clears ERR, ERRCODE and ERROP and touches nothing else; and 0x00000109 is
no CLRERR. -/
def Obligations.ClrerrClearsTheRecord : Prop :=
  decode 0x00000009 = .ok .clrerr ∧ decode 0x00000109 ≠ .ok .clrerr ∧
    ∀ s : State, exec .clrerr s = .next { s with err := false, errcode := .noError, errop := 0 }

/-- 40_bitfield.md R73: INIT, word 0x00000001. With `n` = 0 or `n` above NBITS_MAX: InvalidParameters. Else, with CFG 0 or
1: SIZE = n, BYTES = ceil8(n), CFG = 1, RESULT = 0, IDX = 0, `A[0 .. ceil8(n)-1]` zero and every other byte as it was. -/
def Obligations.InitCreatesZeroArray : Prop :=
  decode 0x00000001 = .ok .init ∧
  (∀ s : State, s.operand.toNat = 0 ∨ s.cap.toNat < s.operand.toNat →
    exec .init s = .next (s.recordError 0x01 .invalidParameters)) ∧
  (∀ s : State, 1 ≤ s.operand.toNat → s.operand.toNat ≤ s.cap.toNat →
    ∃ t, exec .init s = .next t ∧
      t = { s with array := t.array, size := s.operand, bytes := BitVec.ofNat 128 ((s.operand.toNat + 7) / 8),
                   cfg := true, result := false, idx := 0 } ∧
      t.bytes.toNat = (s.operand.toNat + 7) / 8 ∧
      ∀ a, t.array.read a = if a < (s.operand.toNat + 7) / 8 then 0 else s.array.read a)

/-- 40_bitfield.md R74: SETB, word 0x00000002. CFG = 0: NotConfigured; `i >= SIZE`: IndexOutOfRange; else bit `i` is set,
no other bit of `A` changes, only byte `i div 8` is written, IDX = i, and nothing else changes. The invariant (R39) says
that byte exists. -/
def Obligations.SetbSetsTheBit : Prop :=
  decode 0x00000002 = .ok .setb ∧
  (∀ s : State, s.cfg = false → exec .setb s = .next (s.recordError 0x02 .notConfigured)) ∧
  (∀ s : State, s.cfg = true → s.size.toNat ≤ s.operand.toNat →
    exec .setb s = .next (s.recordError 0x02 .indexOutOfRange)) ∧
  (∀ s : State, s.Inv → s.cfg = true → s.operand.toNat < s.size.toNat →
    ∃ t, exec .setb s = .next t ∧ t = { s with array := t.array, idx := s.operand } ∧
      (∀ a, t.array.read a = if a = s.operand.toNat / 8
        then s.array.read a ||| (1#8 <<< (s.operand.toNat % 8)) else s.array.read a) ∧
      (∀ k, t.bit k = (s.bit k || k == s.operand.toNat)))

/-- 40_bitfield.md R75: GETB, word 0x00000003. CFG = 0: NotConfigured; `i >= SIZE`: IndexOutOfRange; else RESULT is bit `i`
of the array, IDX = i, and nothing else changes. -/
def Obligations.GetbReadsTheBit : Prop :=
  decode 0x00000003 = .ok .getb ∧
  (∀ s : State, s.cfg = false → exec .getb s = .next (s.recordError 0x03 .notConfigured)) ∧
  (∀ s : State, s.cfg = true → s.size.toNat ≤ s.operand.toNat →
    exec .getb s = .next (s.recordError 0x03 .indexOutOfRange)) ∧
  (∀ s : State, s.Inv → s.cfg = true → s.operand.toNat < s.size.toNat →
    exec .getb s = .next
      { s with result := (s.array.read (s.operand.toNat / 8)).getLsbD (s.operand.toNat % 8), idx := s.operand })

/-- 41_reduction.md R82: REDUCE, word 0x00000004. CFG = 0: NotConfigured; else IDX is the reduced index, and nothing else
changes. -/
def Obligations.ReduceWritesTheIndex : Prop :=
  decode 0x00000004 = .ok .reduce ∧
  (∀ s : State, s.cfg = false → exec .reduce s = .next (s.recordError 0x04 .notConfigured)) ∧
  (∀ s : State, s.cfg = true → 1 ≤ s.size.toNat →
    ∃ t, exec .reduce s = .next t ∧ t = { s with idx := t.idx } ∧
      (t.idx.toNat : Int) = hashValue s.hmode s.operand % (s.size.toNat : Int))

/-- 41_reduction.md R83: SETH, word 0x00000005. CFG = 0: NotConfigured; else the bit of the reduced index is set, no other
bit changes, only its byte is written, IDX is the index, and nothing else changes. -/
def Obligations.SethSetsTheReducedBit : Prop :=
  decode 0x00000005 = .ok .seth ∧
  (∀ s : State, s.cfg = false → exec .seth s = .next (s.recordError 0x05 .notConfigured)) ∧
  (∀ s : State, s.Inv → s.cfg = true →
    ∃ t, exec .seth s = .next t ∧ t = { s with array := t.array, idx := t.idx } ∧
      (t.idx.toNat : Int) = hashValue s.hmode s.operand % (s.size.toNat : Int) ∧
      (∀ a, t.array.read a = if a = t.idx.toNat / 8
        then s.array.read a ||| (1#8 <<< (t.idx.toNat % 8)) else s.array.read a) ∧
      (∀ k, t.bit k = (s.bit k || k == t.idx.toNat)))

/-- 41_reduction.md R84: GETH, word 0x00000006. CFG = 0: NotConfigured; else RESULT is the bit of the reduced index, IDX is
the index, and nothing else changes. -/
def Obligations.GethReadsTheReducedBit : Prop :=
  decode 0x00000006 = .ok .geth ∧
  (∀ s : State, s.cfg = false → exec .geth s = .next (s.recordError 0x06 .notConfigured)) ∧
  (∀ s : State, s.Inv → s.cfg = true →
    ∃ t, exec .geth s = .next t ∧ t = { s with result := t.result, idx := t.idx } ∧
      (t.idx.toNat : Int) = hashValue s.hmode s.operand % (s.size.toNat : Int) ∧
      t.result = (s.array.read (t.idx.toNat / 8)).getLsbD (t.idx.toNat % 8))

/-- 42_byte_access.md R87: RDBYTE, word 0x00000007. CFG = 0: NotConfigured; `j >= BYTES`: IndexOutOfRange; else DATA is
`A[j]` whole, padding bits and all, and nothing else changes. -/
def Obligations.RdbyteReadsTheByte : Prop :=
  decode 0x00000007 = .ok .rdbyte ∧
  (∀ s : State, s.cfg = false → exec .rdbyte s = .next (s.recordError 0x07 .notConfigured)) ∧
  (∀ s : State, s.cfg = true → s.bytes.toNat ≤ s.operand.toNat →
    exec .rdbyte s = .next (s.recordError 0x07 .indexOutOfRange)) ∧
  (∀ s : State, s.Inv → s.cfg = true → s.operand.toNat < s.bytes.toNat →
    exec .rdbyte s = .next { s with data := s.array.read s.operand.toNat })

/-- 42_byte_access.md R88: ORBYTE, word 0x00000008. CFG = 0: NotConfigured; `j >= BYTES`: IndexOutOfRange; else DATA is ORed
into `A[j]`, and no other byte and nothing else changes. -/
def Obligations.OrbyteOrsTheByte : Prop :=
  decode 0x00000008 = .ok .orbyte ∧
  (∀ s : State, s.cfg = false → exec .orbyte s = .next (s.recordError 0x08 .notConfigured)) ∧
  (∀ s : State, s.cfg = true → s.bytes.toNat ≤ s.operand.toNat →
    exec .orbyte s = .next (s.recordError 0x08 .indexOutOfRange)) ∧
  (∀ s : State, s.Inv → s.cfg = true → s.operand.toNat < s.bytes.toNat →
    ∃ t, exec .orbyte s = .next t ∧ t = { s with array := t.array } ∧
      ∀ a, t.array.read a = if a = s.operand.toNat then s.array.read a ||| s.data else s.array.read a)

/-! ## Frames and laws of the commands -/

/-- Which registers a command may write, and no others (10_state.md R21, R24, R25, R26, R28 to R33): CTRL, OPERAND, CAP
never; ERR, ERRCODE and ERROP by CLRERR and by a command that fails (60_exceptions.md R96, R97); SIZE, BYTES, CFG by INIT; RESULT by INIT, GETB, GETH; DATA by RDBYTE; IDX by INIT, SETB, GETB, REDUCE, SETH, GETH; the array
by INIT, SETB, SETH, ORBYTE. -/
def Obligations.CommandsWriteOnlyTheirRegisters : Prop :=
  ∀ (i : Instr) (s t : State), exec i s = .next t →
    t.hmode = s.hmode ∧ t.operand = s.operand ∧ t.cap = s.cap ∧ t.host = s.host ∧ t.seen = s.seen ∧
    (i ≠ .init → t.size = s.size ∧ t.bytes = s.bytes ∧ t.cfg = s.cfg) ∧
    (i ≠ .clrerr → errorOf i s = none → t.err = s.err ∧ t.errcode = s.errcode ∧ t.errop = s.errop) ∧
    (i ∉ [Instr.init, .getb, .geth] → t.result = s.result) ∧
    (i ≠ .rdbyte → t.data = s.data) ∧
    (i ∉ [Instr.init, .setb, .getb, .reduce, .seth, .geth] → t.idx = s.idx) ∧
    (i ∉ [Instr.init, .setb, .seth, .orbyte] → ∀ a, t.array.read a = s.array.read a)

/-- 20_memory.md R47: no command but INIT touches a byte at or above BYTES, and none but INIT and ORBYTE touches a bit at or
above SIZE, the padding bits among them (40_bitfield.md R77). -/
def Obligations.CommandsStayInsideTheArray : Prop :=
  ∀ (i : Instr) (s t : State), s.Inv → i ≠ .init → exec i s = .next t →
    (∀ a, s.bytes.toNat ≤ a → t.array.read a = s.array.read a) ∧
    (i ≠ .orbyte → ∀ k, s.size.toNat ≤ k → t.bit k = s.bit k)

/-- 10_state.md R38: between two successful INITs no command clears a bit: SETB, SETH and ORBYTE only turn bits from 0 to 1
and every other access leaves `A` unchanged. Every step is covered: reads, writes, bus errors and illegal words too; only a
reset and a successful INIT (`endsLifetime`) are not. -/
def Obligations.BitsAreOnlySet : Prop :=
  ∀ s t : State, s.endsLifetime = false → step s = .next t →
    (∀ k, s.bit k = true → t.bit k = true) ∧
    ((∀ w rest, s.host = .write (.bits 32) 0x08 w :: rest → w ≠ 0x2 ∧ w ≠ 0x5 ∧ w ≠ 0x8) →
      ∀ a, t.array.read a = s.array.read a)

/-- 20_memory.md R54: each command, done twice in a row with the same operands, leaves the same state as done once,
whether it succeeds or fails. -/
def Obligations.CommandsAreIdempotent : Prop :=
  ∀ (i : Instr) (s t : State), s.array.wf → exec i s = .next t → exec i t = .next t

/-- 41_reduction.md R85, with CFG = 1: SETH with OPERAND = v leaves the same state as REDUCE and then SETB with OPERAND =
IDX, apart from OPERAND; GETH likewise equals REDUCE and then GETB. -/
def Obligations.FusedCommandsAreReduceThenBit : Prop :=
  ∀ s : State, s.Inv → s.cfg = true → ∃ r t u v w,
    exec .reduce s = .next r ∧
    exec .setb { r with operand := r.idx } = .next t ∧ exec .seth s = .next u ∧ u = { t with operand := s.operand } ∧
    exec .getb { r with operand := r.idx } = .next v ∧ exec .geth s = .next w ∧ w = { v with operand := s.operand }

/-! ## The reduction -/

/-- 41_reduction.md R79: the four readings of the hash and the floor modulo, exact. -/
def Obligations.ReductionIsFloorModulo : Prop :=
  ∀ (x : Quad) (n : Nat), 1 ≤ n →
    (red x .u32 n : Int) = ((x.toNat % 2 ^ 32 : Nat) : Int) % (n : Int) ∧
    (red x .s32 n : Int) =
      (if x.toNat % 2 ^ 32 < 2 ^ 31 then ((x.toNat % 2 ^ 32 : Nat) : Int)
       else ((x.toNat % 2 ^ 32 : Nat) : Int) - 2 ^ 32) % (n : Int) ∧
    (red x .u128 n : Int) = (x.toNat : Int) % (n : Int) ∧
    (red x .s128 n : Int) =
      (if x.toNat < 2 ^ 127 then (x.toNat : Int) else (x.toNat : Int) - 2 ^ 128) % (n : Int)

/-- 41_reduction.md R80: a reduced index is always a valid bit index, and REDUCE, SETH and GETH never raise
IndexOutOfRange. -/
def Obligations.ReducedIndexIsInRange : Prop :=
  (∀ (x : Quad) (m : HMode) (n : Nat), 1 ≤ n → red x m n ≤ n - 1) ∧
  (∀ (i : Instr) (s t : State), i ∈ [Instr.reduce, .seth, .geth] → exec i s = .next t →
    t.errcode = .indexOutOfRange → s.errcode = .indexOutOfRange)

/-- 41_reduction.md R81: in U32 and S32 two OPERAND values that agree in bits 31:0 reduce to the same index. -/
def Obligations.ReductionIgnoresUpperBits : Prop :=
  ∀ (x y : Quad) (n : Nat), x.extractLsb' 0 32 = y.extractLsb' 0 32 →
    red x .u32 n = red y .u32 n ∧ red x .s32 n = red y .s32 n

/-- 41_reduction.md R86 (a) to (e): SIZE = 1 gives 0; U32 and U128 agree when OPERAND[127:32] = 0;
S32 and U32 agree when OPERAND[31] = 0 and otherwise differ unless `2^32 mod SIZE = 0`; a power of two takes the low bits in
every mode; for `h = -1`, SIZE = 10 the truncating remainder is -1 and the reduction gives 9. -/
def Obligations.ReductionLawsHold : Prop :=
  (∀ (x : Quad) (m : HMode), red x m 1 = 0) ∧
  (∀ (x : Quad) (n : Nat), 1 ≤ n → x.toNat < 2 ^ 32 → red x .u32 n = red x .u128 n) ∧
  (∀ (x : Quad) (n : Nat), 1 ≤ n → x.getLsbD 31 = false → red x .s32 n = red x .u32 n) ∧
  (∀ (x : Quad) (n : Nat), 1 ≤ n → x.getLsbD 31 = true →
    (red x .s32 n : Int) = ((x.toNat % 2 ^ 32 : Nat) - 2 ^ 32 : Int) % (n : Int) ∧
    (red x .s32 n = red x .u32 n ↔ 2 ^ 32 % n = 0)) ∧
  (∀ (x : Quad) (k : Nat), k ≤ 32 → red x .u32 (2 ^ k) = x.toNat % 2 ^ k ∧ red x .s32 (2 ^ k) = x.toNat % 2 ^ k) ∧
  (∀ (x : Quad) (k : Nat), k ≤ 128 → red x .u128 (2 ^ k) = x.toNat % 2 ^ k ∧ red x .s128 (2 ^ k) = x.toNat % 2 ^ k) ∧
  Int.tmod (-1) 10 = -1 ∧ red 0xFFFFFFFF .s32 10 = 9

/-- A hash number in the range of a mode, written as the bits host assembly gives it, is the value the mode reads back from
those bits (41_reduction.md R79). 30_encoding.md R68 says that a negative number stands for its two's-complement bits and
shows S32 only; that they are 128 bits wide in S128 is the model's own reading (DEDUCED, log entry 17). -/
def Obligations.HashNumberReadsBack : Prop :=
  ∀ (m : HMode) (h : Int), hashInRange m h = true →
    hashBits m h < 2 ^ 128 ∧ hashValue m (BitVec.ofNat 128 (hashBits m h)) = h

/-! ## The array's layout -/

/-- 20_memory.md R48, R49: bit `i` is bit `i mod 8` of byte `i div 8`, position 0 the least significant, and its mask is
`1 << (i mod 8)`; with `A[0] = 0x28` bits 3 and 5 are 1 and bits 0, 1, 2, 4, 6, 7 are 0. -/
def Obligations.BitsAreLsbFirst : Prop :=
  (∀ (s : State) (i : Nat), s.bit i = decide ((s.array.read (i / 8)).toNat / 2 ^ (i % 8) % 2 = 1)) ∧
  (∀ i : Nat, (bitMask i).toNat = 2 ^ (i % 8)) ∧
  (∀ s : State, s.array.read 0 = 0x28 → ∀ i, i < 8 → (s.bit i = true ↔ i = 3 ∨ i = 5))

/-! ## The register window -/

/-- 10_state.md R20, R34: a register stands at each of its offsets and nowhere else: the map of offsets is exact. -/
def Obligations.RegisterOffsetsAreExact : Prop :=
  ∀ (off : Offset) (r : Reg), target (.bits 32) off = some r ↔ off = r.offset

/-- 10_state.md R20 to R23, R27, R34, R35 and 60_exceptions.md R95: what a read of each register returns, reserved bits 0,
CMD 0; with the number of each mode in CTRL (0 U32, 1 S32, 2 U128, 3 S128) and of each error code in STATUS bits 7:4 (0 None,
1 InvalidParameters, 2 IndexOutOfRange, 3 IllegalCommand, 4 NotConfigured). -/
def Obligations.RegisterReadsReturnFields : Prop :=
  ∀ s : State,
    (target (.bits 32) 0x00).map (readReg · s) = some (s.hmode.toBits.setWidth 32) ∧
    (target (.bits 32) 0x04).map (readReg · s) = some
      ((BitVec.ofBool s.cfg).setWidth 32 ||| (BitVec.ofBool s.result).setWidth 32 <<< 1
        ||| (BitVec.ofBool s.err).setWidth 32 <<< 2 ||| s.errcode.toBits.setWidth 32 <<< 4
        ||| s.errop.setWidth 32 <<< 8) ∧
    ((s.hmode = .u32 ↔ readReg .ctrl s = 0) ∧ (s.hmode = .s32 ↔ readReg .ctrl s = 1) ∧
      (s.hmode = .u128 ↔ readReg .ctrl s = 2) ∧ (s.hmode = .s128 ↔ readReg .ctrl s = 3)) ∧
    ((s.errcode = .noError ↔ (readReg .status s).extractLsb' 4 4 = 0) ∧
      (s.errcode = .invalidParameters ↔ (readReg .status s).extractLsb' 4 4 = 1) ∧
      (s.errcode = .indexOutOfRange ↔ (readReg .status s).extractLsb' 4 4 = 2) ∧
      (s.errcode = .illegalCommand ↔ (readReg .status s).extractLsb' 4 4 = 3) ∧
      (s.errcode = .notConfigured ↔ (readReg .status s).extractLsb' 4 4 = 4)) ∧
    (target (.bits 32) 0x08).map (readReg · s) = some 0 ∧
    (target (.bits 32) 0x0C).map (readReg · s) = some (s.data.setWidth 32) ∧
    ∀ k : Nat, k < 4 →
      (target (.bits 32) (BitVec.ofNat 8 (0x10 + 4 * k))).map (readReg · s) = some (s.operand.extractLsb' (32 * k) 32) ∧
      (target (.bits 32) (BitVec.ofNat 8 (0x20 + 4 * k))).map (readReg · s) = some (s.size.extractLsb' (32 * k) 32) ∧
      (target (.bits 32) (BitVec.ofNat 8 (0x30 + 4 * k))).map (readReg · s) = some (s.bytes.extractLsb' (32 * k) 32) ∧
      (target (.bits 32) (BitVec.ofNat 8 (0x40 + 4 * k))).map (readReg · s) = some (s.idx.extractLsb' (32 * k) 32) ∧
      (target (.bits 32) (BitVec.ofNat 8 (0x50 + 4 * k))).map (readReg · s) = some (s.cap.extractLsb' (32 * k) 32)

/-- 20_memory.md R54: a read of a mapped register answers its word and has no side effect on any register or byte. -/
def Obligations.ReadsHaveNoSideEffects : Prop :=
  ∀ (s : State) (r : Reg) (rest : List HostEvent), s.host = .read (.bits 32) r.offset :: rest →
    step s = .next { s with host := rest, seen := s.seen ++ [.data (readReg r s)] }

/-- 20_memory.md R52, R53: an access of another width, or at an offset that is no multiple of 4, or at an unmapped offset
gets a bus error, returns no data and changes no state, the error record (R100) included. -/
def Obligations.BusErrorChangesNothing : Prop :=
  ∀ (s : State) (width : Width) (off : Offset) (w : Word) (rest : List HostEvent),
    width ≠ .bits 32 ∨ off.toNat % 4 ≠ 0 ∨ 0x60 ≤ off.toNat →
    s.host = .read width off :: rest ∨ s.host = .write width off w :: rest →
      step s = .next { s with host := rest, seen := s.seen ++ [.busError] }

/-- 10_state.md R36: a write to a read-only register (STATUS, SIZE, BYTES, IDX, CAP) is accepted by the bus and changes no
state. -/
def Obligations.ReadOnlyWritesIgnored : Prop :=
  ∀ (s : State) (off : Offset) (w : Word) (rest : List HostEvent),
    off.toNat % 4 = 0 → off = 0x04 ∨ (0x20 ≤ off.toNat ∧ off.toNat ≤ 0x5C) →
    s.host = .write (.bits 32) off w :: rest →
      step s = .next { s with host := rest, seen := s.seen ++ [.done] }

/-- 10_state.md R21, R22, R28, R35: a write to CTRL sets HMODE to the written bits 1:0, 0 for U32, 1 for S32, 2 for U128, 3
for S128, and a write to DATA sets DATA to the
written bits 7:0; the other bits are ignored, and nothing else changes. -/
def Obligations.CtrlAndDataWritesStore : Prop :=
  ∀ (s : State) (w : Word) (rest : List HostEvent),
    (s.host = .write (.bits 32) 0x00 w :: rest →
      ∃ t, step s = .next t ∧ t = { s with hmode := t.hmode, host := rest, seen := s.seen ++ [.done] } ∧
        t.hmode.toBits.toNat = w.toNat % 4 ∧
        (w.toNat % 4 = 0 → t.hmode = .u32) ∧ (w.toNat % 4 = 1 → t.hmode = .s32) ∧
        (w.toNat % 4 = 2 → t.hmode = .u128) ∧ (w.toNat % 4 = 3 → t.hmode = .s128)) ∧
    (s.host = .write (.bits 32) 0x0C w :: rest →
      step s = .next { s with data := BitVec.ofNat 8 w.toNat, host := rest, seen := s.seen ++ [.done] })

/-- 10_state.md R34: a write of OPERAND word `k` replaces bits `32k+31 : 32k` of OPERAND and no others. -/
def Obligations.OperandWordWriteReplacesItsBits : Prop :=
  ∀ (s : State) (k : Nat) (w : Word) (rest : List HostEvent), k < 4 →
    s.host = .write (.bits 32) (BitVec.ofNat 8 (0x10 + 4 * k)) w :: rest →
      ∃ t, step s = .next t ∧ t = { s with operand := t.operand, host := rest, seen := s.seen ++ [.done] } ∧
        ∀ b, t.operand.getLsbD b = if 32 * k ≤ b ∧ b < 32 * k + 32 then w.getLsbD (b - 32 * k) else s.operand.getLsbD b

/-- 20_memory.md R50, R51: the byte at offset `off + b` is bits `8b+7 : 8b` of the register at `off`; so the sixteen bytes
at 0x10 to 0x1F are OPERAND's from least to most significant. -/
def Obligations.WindowBytesAreLittleEndian : Prop :=
  (∀ (s : State) (r : Reg) (b : Nat), b < 4 →
    windowByte (BitVec.ofNat 8 (r.offset.toNat + b)) s = some ((readReg r s).extractLsb' (8 * b) 8)) ∧
  (∀ (s : State) (j : Nat), j < 16 →
    windowByte (BitVec.ofNat 8 (0x10 + j)) s = some (s.operand.extractLsb' (8 * j) 8))

/-- 00_scope.md R9, 20_memory.md R46: BASE is aligned to 256 bytes, the window is the bus addresses BASE to BASE + 0xFF, and
no other address reaches the block. -/
def Obligations.WindowIsAtBase : Prop :=
  Config.base % 256 = 0 ∧
  (∀ off : Offset, offsetOf (Config.base + off.toNat) = some off) ∧
  (∀ addr : Nat, addr < Config.base ∨ Config.base + 0xFF < addr → offsetOf addr = none)

/-! ## Host assembly -/

/-- 30_encoding.md R69: LDOP v expands to the four writes of its words, in that order, which leave OPERAND = v; LDOP32 v is
the one write, which leaves OPERAND[31:0] = v and OPERAND[127:32] as they were. -/
def Obligations.LdopLoadsOperand : Prop :=
  (∀ v : Nat, v < 2 ^ 128 → (HostLine.ldop v).expand =
    [.write (.bits 32) 0x10 (BitVec.ofNat 32 v), .write (.bits 32) 0x14 (BitVec.ofNat 32 (v / 2 ^ 32)),
     .write (.bits 32) 0x18 (BitVec.ofNat 32 (v / 2 ^ 64)), .write (.bits 32) 0x1C (BitVec.ofNat 32 (v / 2 ^ 96))]) ∧
  (∀ v : Nat, (HostLine.ldop32 v).expand = [.write (.bits 32) 0x10 (BitVec.ofNat 32 v)]) ∧
  (∀ (s : State) (v : Nat), v < 2 ^ 128 →
    performAll (HostLine.ldop v).expand s =
      .next { s with operand := BitVec.ofNat 128 v, seen := s.seen ++ [.done, .done, .done, .done] }) ∧
  (∀ (s : State) (v : Nat), v < 2 ^ 32 →
    performAll (HostLine.ldop32 v).expand s =
      .next { s with operand := s.operand.extractLsb' 32 96 ++ BitVec.ofNat 32 v, seen := s.seen ++ [.done] })

/-! ## Headlines over many steps -/

/-- 10_state.md R43 with 70_reset_and_hazards.md R125: the unspecified content of SRAM is never observed. Two runs of any
length, over the same events from states that meet the invariant and differ only in bytes no command reaches, answer alike
at every step, so the host sees the same, and end in states that differ only so. -/
def Obligations.UnspecifiedSramIsNeverSeen : Prop :=
  ∀ (k : Nat) (s t u : State), s.Inv → s.looksLike t → runSteps k s = .next u →
    ∃ v, runSteps k t = .next v ∧ v.seen = u.seen ∧ u.looksLike v

/-- 40_bitfield.md R76: once a SETB or SETH sets bit `i`, every later GETB of `i`, or GETH whose reduction gives `i`, returns
RESULT = 1 until the next successful INIT (or reset), whatever accesses come between. -/
def Obligations.NoFalseNegatives : Prop :=
  ∀ (s t u : State) (i : Instr) (k : Nat), s.Inv → s.cfg = true →
    i = .setb ∧ s.operand.toNat < s.size.toNat ∨ i = .seth →
    exec i s = .next t → t.withinLifetime k → runSteps k t = .next u →
    (∃ v, exec .getb { u with operand := t.idx } = .next v ∧ v.result = true) ∧
    (hashIndex u = t.idx.toNat → ∃ v, exec .geth u = .next v ∧ v.result = true)

/-- 42_byte_access.md R89: save and load compose. INIT of `n` and then ORBYTE of `b_j` at every `j < ceil8(n)` leaves every
`A[j] = b_j`, SIZE = n and BYTES = ceil8(n), with no error recorded; and RDBYTE of every `j < BYTES` then returns `b_j`. -/
def Obligations.SaveAndLoadCompose : Prop :=
  ∀ (s : State) (n : Nat) (bs : List Byte), s.Inv → 1 ≤ n → n ≤ s.cap.toNat → bs.length = (n + 7) / 8 →
    ∃ t, performAll (transcript (.op .init n :: fillLines bs)) s = .next t ∧
      t.size.toNat = n ∧ t.bytes.toNat = (n + 7) / 8 ∧ t.cfg = true ∧
      t.err = s.err ∧ t.errcode = s.errcode ∧ t.errop = s.errop ∧
      ∀ (j : Nat) (hj : j < bs.length), t.array.read j = bs[j] ∧
        exec .rdbyte { t with operand := BitVec.ofNat 128 j } =
          .next { t with operand := BitVec.ofNat 128 j, data := bs[j] }

/-- 70_reset_and_hazards.md R120, R121, the source's property at the host: after `add` of an element's hash values to a
configured filter with no error recorded, `lookup` of the same hash values finds it. -/
def Obligations.LookupAfterAddIsPresent : Prop :=
  ∀ (s t : State) (hashes : List Nat), s.Inv → s.cfg = true → s.err = false →
    performAll (transcript (addLines hashes)) s = .next t → ∃ u, lookup hashes t = .present u

/-- 70_reset_and_hazards.md R122: `save` reads a file of `32 + BYTES` bytes: SIZE and the host's hashcount as 16-byte
little-endian integers, then every byte of the array in order. -/
def Obligations.SaveWritesTheFileLayout : Prop :=
  ∀ (s : State) (hashcount : Nat), s.Inv → s.cfg = true →
    ∃ t, performAll (transcript (saveLines s.bytes.toNat)) s = .next t ∧
      fileOf hashcount (t.seen.drop s.seen.length) =
        le16 s.size.toNat ++ le16 hashcount ++ (List.range s.bytes.toNat).map s.array.read

/-- The round trip of 42_byte_access.md R89 and 70_reset_and_hazards.md R122, R123 at the host: the file `save` writes from a
configured filter, loaded into any block of enough capacity with no error recorded, whatever filter it holds, gives back the
size, the hashcount and every byte, so every bit. -/
def Obligations.LoadRestoresTheSavedFilter : Prop :=
  ∀ (s s' : State) (hashcount : Nat), s.Inv → s.cfg = true → s'.Inv → s'.err = false →
    s.size.toNat ≤ s'.cap.toNat → 1 ≤ hashcount → hashcount < 2 ^ 128 →
    ∃ t u, performAll (transcript (saveLines s.bytes.toNat)) s = .next t ∧
      load (fileOf hashcount (t.seen.drop s.seen.length)) s' = .loaded hashcount u ∧
      u.size = s.size ∧ u.bytes = s.bytes ∧ u.cfg = true ∧ u.err = false ∧
      (∀ j, j < s.bytes.toNat → u.array.read j = s.array.read j) ∧
      ∀ k, k < s.size.toNat → u.bit k = s.bit k

/-! ## The error record over steps, and the values of the read lines -/

/-- 10_state.md R26: ERR, ERRCODE and ERROP are STATUS bits 2, 7:4 and 15:8, all 0 after reset. A step changes them only as
60_exceptions.md R97 says, by the CMD write of a word that fails while ERR = 0, which records that word's error code and its
bits 7:0; every such word that fails leaves ERR = 1; and only the CMD write of CLRERR and reset clear them. -/
def Obligations.ErrorRecordIsSticky : Prop :=
  (∀ s : State, (readReg .status s).getLsbD 2 = s.err ∧ (readReg .status s).extractLsb' 4 4 = s.errcode.toBits ∧
    (readReg .status s).extractLsb' 8 8 = s.errop) ∧
  (State.reset.err = false ∧ State.reset.errcode.toBits = 0 ∧ State.reset.errop = 0) ∧
  (∀ s t : State, step s = .next t →
    (∃ rest, s.host = .reset :: rest ∨ s.host = .write (.bits 32) 0x08 0x00000009 :: rest) ∧
        t.err = false ∧ t.errcode = .noError ∧ t.errop = 0 ∨
    (∃ w rest c, s.host = .write (.bits 32) 0x08 w :: rest ∧ s.err = false ∧ errorOfWord w s = some c ∧
        t.err = true ∧ t.errcode = c ∧ t.errop = BitVec.ofNat 8 w.toNat) ∨
    t.err = s.err ∧ t.errcode = s.errcode ∧ t.errop = s.errop) ∧
  (∀ (s t : State) (w : Word) (rest : List HostEvent) (c : ErrCode), s.host = .write (.bits 32) 0x08 w :: rest →
    errorOfWord w s = some c → step s = .next t → t.err = true) ∧
  (∀ s t : State, step s = .next t → s.err = true → t.err = false →
    ∃ rest, s.host = .reset :: rest ∨ s.host = .write (.bits 32) 0x08 0x00000009 :: rest)

/-- 30_encoding.md R71: `RD <reg>` is the read of the register's offset; `RD128 <X>` is the four reads of X0 to X3 in that
order, and its results assemble to the value of X; `RESULT?` is the read of STATUS, and its value is STATUS.RESULT. None of
them changes the block. -/
def Obligations.ReadLinesGiveTheirValues : Prop :=
  (∀ r : Reg, (HostLine.rd r).expand = [.read (.bits 32) r.offset]) ∧
  (∀ x : WideReg, (HostLine.rd128 x).expand =
    [.read (.bits 32) (Reg.wide x 0).offset, .read (.bits 32) (Reg.wide x 1).offset,
     .read (.bits 32) (Reg.wide x 2).offset, .read (.bits 32) (Reg.wide x 3).offset]) ∧
  HostLine.resultQuery.expand = [.read (.bits 32) Reg.status.offset] ∧
  (∀ (r : Reg) (s : State), ∃ rs, performAll (HostLine.rd r).expand s = .next { s with seen := s.seen ++ rs } ∧
    rdValue rs = some (readReg r s)) ∧
  (∀ (x : WideReg) (s : State), ∃ rs, performAll (HostLine.rd128 x).expand s = .next { s with seen := s.seen ++ rs } ∧
    rd128Value rs = some (x.get s)) ∧
  (∀ s : State, ∃ rs, performAll HostLine.resultQuery.expand s = .next { s with seen := s.seen ++ rs } ∧
    resultValue rs = some s.result)

/-! ## The operand lines and the host's decisions -/

/-- 30_encoding.md R70: `INIT n`, `SETB i`, `GETB i`, `REDUCE h`, `SETH h`, `GETH h`, `RDBYTE j` are LDOP of the operand and
then the bare command, one write of its word to CMD; `ORBYTE j, b` writes `b` to DATA first; `MODE m`, with U32, S32, U128,
S128 for 0 to 3, writes CTRL; `LDDATA b` writes DATA. -/
def Obligations.OperandLinesExpand : Prop :=
  (∀ (i : Instr) (v : Nat), i ∈ [Instr.init, .setb, .getb, .reduce, .seth, .geth, .rdbyte] →
    (HostLine.op i v).wellFormed = decide (v < 2 ^ 128) ∧
    (HostLine.op i v).expand = (HostLine.ldop v).expand ++ (HostLine.command i).expand) ∧
  (∀ i : Instr, (HostLine.command i).expand = [.write (.bits 32) 0x08 (encode i)]) ∧
  (∀ j b : Nat, (HostLine.orbyte j b).expand =
    .write (.bits 32) 0x0C (BitVec.ofNat 32 b) :: ((HostLine.ldop j).expand ++ [.write (.bits 32) 0x08 0x00000008])) ∧
  (∀ m : Nat, (HostLine.mode m).wellFormed = decide (m ≤ 3) ∧
    (HostLine.mode m).expand = [.write (.bits 32) 0x00 (BitVec.ofNat 32 m)]) ∧
  (∀ b : Nat, (HostLine.lddata b).expand = [.write (.bits 32) 0x0C (BitVec.ofNat 32 b)]) ∧
  HMode.u32.toBits = 0 ∧ HMode.s32.toBits = 1 ∧ HMode.u128.toBits = 2 ∧ HMode.s128.toBits = 3

/-- 70_reset_and_hazards.md R121, with LDOP for each hash (the model's choice, log entry 19): on a configured filter with no
error recorded, `lookup` answers true exactly when the bit of every hash is set, else false, and either way the array, SIZE,
BYTES, CTRL and the error record stay. -/
def Obligations.LookupAnswersWhetherAllBitsAreSet : Prop :=
  ∀ (s : State) (hashes : List Nat), s.Inv → s.cfg = true → s.err = false →
    ∃ t : State, t.array = s.array ∧ t.size = s.size ∧ t.bytes = s.bytes ∧ t.hmode = s.hmode ∧
      t.err = false ∧ t.errcode = s.errcode ∧ t.errop = s.errop ∧
      lookup hashes s =
        if ∀ h ∈ hashes, s.bit (red (BitVec.ofNat 128 h) s.hmode s.size.toNat) = true then .present t else .absent t

/-- 70_reset_and_hazards.md R123 (90_conflicts.md C4): `load` fails with CorruptData exactly when the file is shorter than 32
bytes, its size or hashcount is 0, or the bytes after the header are not `ceil(size/8)`; and a sound file whose size is above
the capacity fails with InvalidParameters and leaves the old filter. -/
def Obligations.LoadChecksTheFile : Prop :=
  (∀ (file : List Byte) (s : State), load file s = .corruptData ↔
    file.length < 32 ∨ ofLe (file.take 16) = 0 ∨ ofLe ((file.drop 16).take 16) = 0 ∨
      file.length - 32 ≠ (ofLe (file.take 16) + 7) / 8) ∧
  (∀ (file : List Byte) (s : State), load file s ≠ .corruptData → s.Inv → s.err = false →
    s.cap.toNat < ofLe (file.take 16) →
    ∃ t, load file s = .invalidParameters t ∧ t.array = s.array ∧ t.size = s.size ∧ t.bytes = s.bytes ∧ t.cfg = s.cfg ∧
      t.err = true ∧ t.errcode = .invalidParameters ∧ t.errop = 0x01)
end

