-- ==== Sys2Proof/Laws/State.lean ====
section
/-! SUPPORT. What each update of State does to each field: one lemma for a field and an update. -/

namespace Sys2Proof.Machine

/-! ### setMode: CTRL.HMODE written (10_state.md R21) -/

@[simp] theorem State.setMode_hmode (s : State) (m : HMode) : (s.setMode m).hmode = m := rfl
@[simp] theorem State.setMode_cfg (s : State) (m : HMode) : (s.setMode m).cfg = s.cfg := rfl
@[simp] theorem State.setMode_result (s : State) (m : HMode) : (s.setMode m).result = s.result := rfl
@[simp] theorem State.setMode_err (s : State) (m : HMode) : (s.setMode m).err = s.err := rfl
@[simp] theorem State.setMode_errcode (s : State) (m : HMode) : (s.setMode m).errcode = s.errcode := rfl
@[simp] theorem State.setMode_errop (s : State) (m : HMode) : (s.setMode m).errop = s.errop := rfl
@[simp] theorem State.setMode_data (s : State) (m : HMode) : (s.setMode m).data = s.data := rfl
@[simp] theorem State.setMode_operand (s : State) (m : HMode) : (s.setMode m).operand = s.operand := rfl
@[simp] theorem State.setMode_size (s : State) (m : HMode) : (s.setMode m).size = s.size := rfl
@[simp] theorem State.setMode_bytes (s : State) (m : HMode) : (s.setMode m).bytes = s.bytes := rfl
@[simp] theorem State.setMode_idx (s : State) (m : HMode) : (s.setMode m).idx = s.idx := rfl
@[simp] theorem State.setMode_cap (s : State) (m : HMode) : (s.setMode m).cap = s.cap := rfl
@[simp] theorem State.setMode_array (s : State) (m : HMode) : (s.setMode m).array = s.array := rfl
@[simp] theorem State.setMode_host (s : State) (m : HMode) : (s.setMode m).host = s.host := rfl
@[simp] theorem State.setMode_seen (s : State) (m : HMode) : (s.setMode m).seen = s.seen := rfl
@[simp] theorem State.setMode_nbytesMax (s : State) (m : HMode) : (s.setMode m).nbytesMax = s.nbytesMax := rfl

/-! ### setData: DATA written (10_state.md R28) -/

@[simp] theorem State.setData_hmode (s : State) (b : Byte) : (s.setData b).hmode = s.hmode := rfl
@[simp] theorem State.setData_cfg (s : State) (b : Byte) : (s.setData b).cfg = s.cfg := rfl
@[simp] theorem State.setData_result (s : State) (b : Byte) : (s.setData b).result = s.result := rfl
@[simp] theorem State.setData_err (s : State) (b : Byte) : (s.setData b).err = s.err := rfl
@[simp] theorem State.setData_errcode (s : State) (b : Byte) : (s.setData b).errcode = s.errcode := rfl
@[simp] theorem State.setData_errop (s : State) (b : Byte) : (s.setData b).errop = s.errop := rfl
@[simp] theorem State.setData_data (s : State) (b : Byte) : (s.setData b).data = b := rfl
@[simp] theorem State.setData_operand (s : State) (b : Byte) : (s.setData b).operand = s.operand := rfl
@[simp] theorem State.setData_size (s : State) (b : Byte) : (s.setData b).size = s.size := rfl
@[simp] theorem State.setData_bytes (s : State) (b : Byte) : (s.setData b).bytes = s.bytes := rfl
@[simp] theorem State.setData_idx (s : State) (b : Byte) : (s.setData b).idx = s.idx := rfl
@[simp] theorem State.setData_cap (s : State) (b : Byte) : (s.setData b).cap = s.cap := rfl
@[simp] theorem State.setData_array (s : State) (b : Byte) : (s.setData b).array = s.array := rfl
@[simp] theorem State.setData_host (s : State) (b : Byte) : (s.setData b).host = s.host := rfl
@[simp] theorem State.setData_seen (s : State) (b : Byte) : (s.setData b).seen = s.seen := rfl
@[simp] theorem State.setData_nbytesMax (s : State) (b : Byte) : (s.setData b).nbytesMax = s.nbytesMax := rfl

/-! ### setOperand: OPERAND written (10_state.md R29) -/

@[simp] theorem State.setOperand_hmode (s : State) (x : Quad) : (s.setOperand x).hmode = s.hmode := rfl
@[simp] theorem State.setOperand_cfg (s : State) (x : Quad) : (s.setOperand x).cfg = s.cfg := rfl
@[simp] theorem State.setOperand_result (s : State) (x : Quad) : (s.setOperand x).result = s.result := rfl
@[simp] theorem State.setOperand_err (s : State) (x : Quad) : (s.setOperand x).err = s.err := rfl
@[simp] theorem State.setOperand_errcode (s : State) (x : Quad) : (s.setOperand x).errcode = s.errcode := rfl
@[simp] theorem State.setOperand_errop (s : State) (x : Quad) : (s.setOperand x).errop = s.errop := rfl
@[simp] theorem State.setOperand_data (s : State) (x : Quad) : (s.setOperand x).data = s.data := rfl
@[simp] theorem State.setOperand_operand (s : State) (x : Quad) : (s.setOperand x).operand = x := rfl
@[simp] theorem State.setOperand_size (s : State) (x : Quad) : (s.setOperand x).size = s.size := rfl
@[simp] theorem State.setOperand_bytes (s : State) (x : Quad) : (s.setOperand x).bytes = s.bytes := rfl
@[simp] theorem State.setOperand_idx (s : State) (x : Quad) : (s.setOperand x).idx = s.idx := rfl
@[simp] theorem State.setOperand_cap (s : State) (x : Quad) : (s.setOperand x).cap = s.cap := rfl
@[simp] theorem State.setOperand_array (s : State) (x : Quad) : (s.setOperand x).array = s.array := rfl
@[simp] theorem State.setOperand_host (s : State) (x : Quad) : (s.setOperand x).host = s.host := rfl
@[simp] theorem State.setOperand_seen (s : State) (x : Quad) : (s.setOperand x).seen = s.seen := rfl
@[simp] theorem State.setOperand_nbytesMax (s : State) (x : Quad) : (s.setOperand x).nbytesMax = s.nbytesMax := rfl

/-! ### setResult: STATUS.RESULT written (10_state.md R25) -/

@[simp] theorem State.setResult_hmode (s : State) (b : Bool) : (s.setResult b).hmode = s.hmode := rfl
@[simp] theorem State.setResult_cfg (s : State) (b : Bool) : (s.setResult b).cfg = s.cfg := rfl
@[simp] theorem State.setResult_result (s : State) (b : Bool) : (s.setResult b).result = b := rfl
@[simp] theorem State.setResult_err (s : State) (b : Bool) : (s.setResult b).err = s.err := rfl
@[simp] theorem State.setResult_errcode (s : State) (b : Bool) : (s.setResult b).errcode = s.errcode := rfl
@[simp] theorem State.setResult_errop (s : State) (b : Bool) : (s.setResult b).errop = s.errop := rfl
@[simp] theorem State.setResult_data (s : State) (b : Bool) : (s.setResult b).data = s.data := rfl
@[simp] theorem State.setResult_operand (s : State) (b : Bool) : (s.setResult b).operand = s.operand := rfl
@[simp] theorem State.setResult_size (s : State) (b : Bool) : (s.setResult b).size = s.size := rfl
@[simp] theorem State.setResult_bytes (s : State) (b : Bool) : (s.setResult b).bytes = s.bytes := rfl
@[simp] theorem State.setResult_idx (s : State) (b : Bool) : (s.setResult b).idx = s.idx := rfl
@[simp] theorem State.setResult_cap (s : State) (b : Bool) : (s.setResult b).cap = s.cap := rfl
@[simp] theorem State.setResult_array (s : State) (b : Bool) : (s.setResult b).array = s.array := rfl
@[simp] theorem State.setResult_host (s : State) (b : Bool) : (s.setResult b).host = s.host := rfl
@[simp] theorem State.setResult_seen (s : State) (b : Bool) : (s.setResult b).seen = s.seen := rfl
@[simp] theorem State.setResult_nbytesMax (s : State) (b : Bool) : (s.setResult b).nbytesMax = s.nbytesMax := rfl

/-! ### setIdx: IDX written (10_state.md R32) -/

@[simp] theorem State.setIdx_hmode (s : State) (i : Nat) : (s.setIdx i).hmode = s.hmode := rfl
@[simp] theorem State.setIdx_cfg (s : State) (i : Nat) : (s.setIdx i).cfg = s.cfg := rfl
@[simp] theorem State.setIdx_result (s : State) (i : Nat) : (s.setIdx i).result = s.result := rfl
@[simp] theorem State.setIdx_err (s : State) (i : Nat) : (s.setIdx i).err = s.err := rfl
@[simp] theorem State.setIdx_errcode (s : State) (i : Nat) : (s.setIdx i).errcode = s.errcode := rfl
@[simp] theorem State.setIdx_errop (s : State) (i : Nat) : (s.setIdx i).errop = s.errop := rfl
@[simp] theorem State.setIdx_data (s : State) (i : Nat) : (s.setIdx i).data = s.data := rfl
@[simp] theorem State.setIdx_operand (s : State) (i : Nat) : (s.setIdx i).operand = s.operand := rfl
@[simp] theorem State.setIdx_size (s : State) (i : Nat) : (s.setIdx i).size = s.size := rfl
@[simp] theorem State.setIdx_bytes (s : State) (i : Nat) : (s.setIdx i).bytes = s.bytes := rfl
@[simp] theorem State.setIdx_idx (s : State) (i : Nat) : (s.setIdx i).idx = BitVec.ofNat 128 i := rfl
@[simp] theorem State.setIdx_cap (s : State) (i : Nat) : (s.setIdx i).cap = s.cap := rfl
@[simp] theorem State.setIdx_array (s : State) (i : Nat) : (s.setIdx i).array = s.array := rfl
@[simp] theorem State.setIdx_host (s : State) (i : Nat) : (s.setIdx i).host = s.host := rfl
@[simp] theorem State.setIdx_seen (s : State) (i : Nat) : (s.setIdx i).seen = s.seen := rfl
@[simp] theorem State.setIdx_nbytesMax (s : State) (i : Nat) : (s.setIdx i).nbytesMax = s.nbytesMax := rfl

/-! ### setArray: the array written (10_state.md R37) -/

@[simp] theorem State.setArray_hmode (s : State) (m : Memory) : (s.setArray m).hmode = s.hmode := rfl
@[simp] theorem State.setArray_cfg (s : State) (m : Memory) : (s.setArray m).cfg = s.cfg := rfl
@[simp] theorem State.setArray_result (s : State) (m : Memory) : (s.setArray m).result = s.result := rfl
@[simp] theorem State.setArray_err (s : State) (m : Memory) : (s.setArray m).err = s.err := rfl
@[simp] theorem State.setArray_errcode (s : State) (m : Memory) : (s.setArray m).errcode = s.errcode := rfl
@[simp] theorem State.setArray_errop (s : State) (m : Memory) : (s.setArray m).errop = s.errop := rfl
@[simp] theorem State.setArray_data (s : State) (m : Memory) : (s.setArray m).data = s.data := rfl
@[simp] theorem State.setArray_operand (s : State) (m : Memory) : (s.setArray m).operand = s.operand := rfl
@[simp] theorem State.setArray_size (s : State) (m : Memory) : (s.setArray m).size = s.size := rfl
@[simp] theorem State.setArray_bytes (s : State) (m : Memory) : (s.setArray m).bytes = s.bytes := rfl
@[simp] theorem State.setArray_idx (s : State) (m : Memory) : (s.setArray m).idx = s.idx := rfl
@[simp] theorem State.setArray_cap (s : State) (m : Memory) : (s.setArray m).cap = s.cap := rfl
@[simp] theorem State.setArray_array (s : State) (m : Memory) : (s.setArray m).array = m := rfl
@[simp] theorem State.setArray_host (s : State) (m : Memory) : (s.setArray m).host = s.host := rfl
@[simp] theorem State.setArray_seen (s : State) (m : Memory) : (s.setArray m).seen = s.seen := rfl
@[simp] theorem State.setArray_nbytesMax (s : State) (m : Memory) : (s.setArray m).nbytesMax = s.nbytesMax := rfl

/-! ### configure: a successful INIT's registers (40_bitfield.md R73) -/

@[simp] theorem State.configure_hmode (s : State) (n : Nat) : (s.configure n).hmode = s.hmode := rfl
@[simp] theorem State.configure_cfg (s : State) (n : Nat) : (s.configure n).cfg = true := rfl
@[simp] theorem State.configure_result (s : State) (n : Nat) : (s.configure n).result = false := rfl
@[simp] theorem State.configure_err (s : State) (n : Nat) : (s.configure n).err = s.err := rfl
@[simp] theorem State.configure_errcode (s : State) (n : Nat) : (s.configure n).errcode = s.errcode := rfl
@[simp] theorem State.configure_errop (s : State) (n : Nat) : (s.configure n).errop = s.errop := rfl
@[simp] theorem State.configure_data (s : State) (n : Nat) : (s.configure n).data = s.data := rfl
@[simp] theorem State.configure_operand (s : State) (n : Nat) : (s.configure n).operand = s.operand := rfl
@[simp] theorem State.configure_size (s : State) (n : Nat) : (s.configure n).size = BitVec.ofNat 128 n := rfl
@[simp] theorem State.configure_bytes (s : State) (n : Nat) : (s.configure n).bytes = BitVec.ofNat 128 (ceil8 n) := rfl
@[simp] theorem State.configure_idx (s : State) (n : Nat) : (s.configure n).idx = 0 := rfl
@[simp] theorem State.configure_cap (s : State) (n : Nat) : (s.configure n).cap = s.cap := rfl
@[simp] theorem State.configure_array (s : State) (n : Nat) : (s.configure n).array = s.array := rfl
@[simp] theorem State.configure_host (s : State) (n : Nat) : (s.configure n).host = s.host := rfl
@[simp] theorem State.configure_seen (s : State) (n : Nat) : (s.configure n).seen = s.seen := rfl
@[simp] theorem State.configure_nbytesMax (s : State) (n : Nat) : (s.configure n).nbytesMax = s.nbytesMax := rfl

/-! ### respond: the host's access answered -/

@[simp] theorem State.respond_hmode (s : State) (r : Response) : (s.respond r).hmode = s.hmode := rfl
@[simp] theorem State.respond_cfg (s : State) (r : Response) : (s.respond r).cfg = s.cfg := rfl
@[simp] theorem State.respond_result (s : State) (r : Response) : (s.respond r).result = s.result := rfl
@[simp] theorem State.respond_err (s : State) (r : Response) : (s.respond r).err = s.err := rfl
@[simp] theorem State.respond_errcode (s : State) (r : Response) : (s.respond r).errcode = s.errcode := rfl
@[simp] theorem State.respond_errop (s : State) (r : Response) : (s.respond r).errop = s.errop := rfl
@[simp] theorem State.respond_data (s : State) (r : Response) : (s.respond r).data = s.data := rfl
@[simp] theorem State.respond_operand (s : State) (r : Response) : (s.respond r).operand = s.operand := rfl
@[simp] theorem State.respond_size (s : State) (r : Response) : (s.respond r).size = s.size := rfl
@[simp] theorem State.respond_bytes (s : State) (r : Response) : (s.respond r).bytes = s.bytes := rfl
@[simp] theorem State.respond_idx (s : State) (r : Response) : (s.respond r).idx = s.idx := rfl
@[simp] theorem State.respond_cap (s : State) (r : Response) : (s.respond r).cap = s.cap := rfl
@[simp] theorem State.respond_array (s : State) (r : Response) : (s.respond r).array = s.array := rfl
@[simp] theorem State.respond_host (s : State) (r : Response) : (s.respond r).host = s.host := rfl
@[simp] theorem State.respond_seen (s : State) (r : Response) : (s.respond r).seen = s.seen ++ [r] := rfl
@[simp] theorem State.respond_nbytesMax (s : State) (r : Response) : (s.respond r).nbytesMax = s.nbytesMax := rfl

/-! ### withHost: the events still to come -/

@[simp] theorem State.withHost_hmode (s : State) (es : List HostEvent) : (s.withHost es).hmode = s.hmode := rfl
@[simp] theorem State.withHost_cfg (s : State) (es : List HostEvent) : (s.withHost es).cfg = s.cfg := rfl
@[simp] theorem State.withHost_result (s : State) (es : List HostEvent) : (s.withHost es).result = s.result := rfl
@[simp] theorem State.withHost_err (s : State) (es : List HostEvent) : (s.withHost es).err = s.err := rfl
@[simp] theorem State.withHost_errcode (s : State) (es : List HostEvent) : (s.withHost es).errcode = s.errcode := rfl
@[simp] theorem State.withHost_errop (s : State) (es : List HostEvent) : (s.withHost es).errop = s.errop := rfl
@[simp] theorem State.withHost_data (s : State) (es : List HostEvent) : (s.withHost es).data = s.data := rfl
@[simp] theorem State.withHost_operand (s : State) (es : List HostEvent) : (s.withHost es).operand = s.operand := rfl
@[simp] theorem State.withHost_size (s : State) (es : List HostEvent) : (s.withHost es).size = s.size := rfl
@[simp] theorem State.withHost_bytes (s : State) (es : List HostEvent) : (s.withHost es).bytes = s.bytes := rfl
@[simp] theorem State.withHost_idx (s : State) (es : List HostEvent) : (s.withHost es).idx = s.idx := rfl
@[simp] theorem State.withHost_cap (s : State) (es : List HostEvent) : (s.withHost es).cap = s.cap := rfl
@[simp] theorem State.withHost_array (s : State) (es : List HostEvent) : (s.withHost es).array = s.array := rfl
@[simp] theorem State.withHost_host (s : State) (es : List HostEvent) : (s.withHost es).host = es := rfl
@[simp] theorem State.withHost_seen (s : State) (es : List HostEvent) : (s.withHost es).seen = s.seen := rfl
@[simp] theorem State.withHost_nbytesMax (s : State) (es : List HostEvent) : (s.withHost es).nbytesMax = s.nbytesMax := rfl

/-! ### clearError: the record cleared (43_control.md R91) -/

@[simp] theorem State.clearError_hmode (s : State) : (s.clearError).hmode = s.hmode := rfl
@[simp] theorem State.clearError_cfg (s : State) : (s.clearError).cfg = s.cfg := rfl
@[simp] theorem State.clearError_result (s : State) : (s.clearError).result = s.result := rfl
@[simp] theorem State.clearError_err (s : State) : (s.clearError).err = false := rfl
@[simp] theorem State.clearError_errcode (s : State) : (s.clearError).errcode = .noError := rfl
@[simp] theorem State.clearError_errop (s : State) : (s.clearError).errop = 0 := rfl
@[simp] theorem State.clearError_data (s : State) : (s.clearError).data = s.data := rfl
@[simp] theorem State.clearError_operand (s : State) : (s.clearError).operand = s.operand := rfl
@[simp] theorem State.clearError_size (s : State) : (s.clearError).size = s.size := rfl
@[simp] theorem State.clearError_bytes (s : State) : (s.clearError).bytes = s.bytes := rfl
@[simp] theorem State.clearError_idx (s : State) : (s.clearError).idx = s.idx := rfl
@[simp] theorem State.clearError_cap (s : State) : (s.clearError).cap = s.cap := rfl
@[simp] theorem State.clearError_array (s : State) : (s.clearError).array = s.array := rfl
@[simp] theorem State.clearError_host (s : State) : (s.clearError).host = s.host := rfl
@[simp] theorem State.clearError_seen (s : State) : (s.clearError).seen = s.seen := rfl
@[simp] theorem State.clearError_nbytesMax (s : State) : (s.clearError).nbytesMax = s.nbytesMax := rfl

/-! ### afterReset: reset (10_state.md R42) -/

@[simp] theorem State.afterReset_hmode (s : State) : (s.afterReset).hmode = State.reset.hmode := rfl
@[simp] theorem State.afterReset_cfg (s : State) : (s.afterReset).cfg = State.reset.cfg := rfl
@[simp] theorem State.afterReset_result (s : State) : (s.afterReset).result = State.reset.result := rfl
@[simp] theorem State.afterReset_err (s : State) : (s.afterReset).err = State.reset.err := rfl
@[simp] theorem State.afterReset_errcode (s : State) : (s.afterReset).errcode = State.reset.errcode := rfl
@[simp] theorem State.afterReset_errop (s : State) : (s.afterReset).errop = State.reset.errop := rfl
@[simp] theorem State.afterReset_data (s : State) : (s.afterReset).data = State.reset.data := rfl
@[simp] theorem State.afterReset_operand (s : State) : (s.afterReset).operand = State.reset.operand := rfl
@[simp] theorem State.afterReset_size (s : State) : (s.afterReset).size = State.reset.size := rfl
@[simp] theorem State.afterReset_bytes (s : State) : (s.afterReset).bytes = State.reset.bytes := rfl
@[simp] theorem State.afterReset_idx (s : State) : (s.afterReset).idx = State.reset.idx := rfl
@[simp] theorem State.afterReset_cap (s : State) : (s.afterReset).cap = s.cap := rfl
@[simp] theorem State.afterReset_array (s : State) : (s.afterReset).array = ⟨[], 0, s.array.draw + 1⟩ := rfl
@[simp] theorem State.afterReset_host (s : State) : (s.afterReset).host = s.host := rfl
@[simp] theorem State.afterReset_seen (s : State) : (s.afterReset).seen = s.seen := rfl
@[simp] theorem State.afterReset_nbytesMax (s : State) : (s.afterReset).nbytesMax = s.nbytesMax := rfl

/-! ### recordError: the first error is kept (60_exceptions.md R97) -/

theorem State.recordError_of_err (s : State) (op : Byte) (c : ErrCode) (h : s.err = true) :
    s.recordError op c = s := by simp [State.recordError, h]

theorem State.recordError_of_not_err (s : State) (op : Byte) (c : ErrCode) (h : s.err = false) :
    s.recordError op c = { s with err := true, errcode := c, errop := op } := by simp [State.recordError, h]

@[simp] theorem State.recordError_hmode (s : State) (op : Byte) (c : ErrCode) : (s.recordError op c).hmode = s.hmode := by
  cases h : s.err <;> simp [State.recordError, h]
@[simp] theorem State.recordError_cfg (s : State) (op : Byte) (c : ErrCode) : (s.recordError op c).cfg = s.cfg := by
  cases h : s.err <;> simp [State.recordError, h]
@[simp] theorem State.recordError_result (s : State) (op : Byte) (c : ErrCode) : (s.recordError op c).result = s.result := by
  cases h : s.err <;> simp [State.recordError, h]
@[simp] theorem State.recordError_err (s : State) (op : Byte) (c : ErrCode) : (s.recordError op c).err = true := by
  cases h : s.err <;> simp [State.recordError, h]
@[simp] theorem State.recordError_errcode (s : State) (op : Byte) (c : ErrCode) :
    (s.recordError op c).errcode = if s.err then s.errcode else c := by
  cases h : s.err <;> simp [State.recordError, h]
@[simp] theorem State.recordError_errop (s : State) (op : Byte) (c : ErrCode) :
    (s.recordError op c).errop = if s.err then s.errop else op := by
  cases h : s.err <;> simp [State.recordError, h]
@[simp] theorem State.recordError_data (s : State) (op : Byte) (c : ErrCode) : (s.recordError op c).data = s.data := by
  cases h : s.err <;> simp [State.recordError, h]
@[simp] theorem State.recordError_operand (s : State) (op : Byte) (c : ErrCode) : (s.recordError op c).operand = s.operand := by
  cases h : s.err <;> simp [State.recordError, h]
@[simp] theorem State.recordError_size (s : State) (op : Byte) (c : ErrCode) : (s.recordError op c).size = s.size := by
  cases h : s.err <;> simp [State.recordError, h]
@[simp] theorem State.recordError_bytes (s : State) (op : Byte) (c : ErrCode) : (s.recordError op c).bytes = s.bytes := by
  cases h : s.err <;> simp [State.recordError, h]
@[simp] theorem State.recordError_idx (s : State) (op : Byte) (c : ErrCode) : (s.recordError op c).idx = s.idx := by
  cases h : s.err <;> simp [State.recordError, h]
@[simp] theorem State.recordError_cap (s : State) (op : Byte) (c : ErrCode) : (s.recordError op c).cap = s.cap := by
  cases h : s.err <;> simp [State.recordError, h]
@[simp] theorem State.recordError_array (s : State) (op : Byte) (c : ErrCode) : (s.recordError op c).array = s.array := by
  cases h : s.err <;> simp [State.recordError, h]
@[simp] theorem State.recordError_host (s : State) (op : Byte) (c : ErrCode) : (s.recordError op c).host = s.host := by
  cases h : s.err <;> simp [State.recordError, h]
@[simp] theorem State.recordError_seen (s : State) (op : Byte) (c : ErrCode) : (s.recordError op c).seen = s.seen := by
  cases h : s.err <;> simp [State.recordError, h]

/-! ### What depends on the array or on CAP alone -/

theorem State.nbytesMax_eq (s : State) : s.nbytesMax = ceil8 s.cap.toNat := rfl

@[simp] theorem State.recordError_nbytesMax (s : State) (op : Byte) (c : ErrCode) :
    (s.recordError op c).nbytesMax = s.nbytesMax := by simp [State.nbytesMax_eq]

theorem State.bit_eq (s : State) (i : Nat) : s.bit i = bitIn (s.array.read (i / 8)) i := rfl

/-- States with the same bytes have the same bits. -/
theorem State.bit_congr {s t : State} (h : ∀ a, s.array.read a = t.array.read a) (i : Nat) : s.bit i = t.bit i := by
  simp [State.bit, h]

end Sys2Proof.Machine
end

