-- ==== Sys2Proof/Laws/Memory.lean ====
section
/-! SUPPORT. The laws of the bit array: read after write, the canonical form kept, equal contents equal data, and INIT's
zero-fill equal to the spec's loop (10_state.md R37; 20_memory.md R47; 40_bitfield.md R73). -/

namespace Sys2Proof.Laws

open Sys2Proof.Machine

/-! ### The list of cells -/

theorem findCell_putCell_same (cs : List Host.Cell) (a : Nat) (v : Byte) : findCell (putCell cs a v) a = some v := by
  induction cs with
  | nil => simp [putCell, findCell]
  | cons c cs ih =>
    obtain ⟨b, u⟩ := c
    by_cases h1 : a < b
    · simp [putCell, findCell, h1]
    · by_cases h2 : a = b
      · simp [putCell, findCell, h2]
      · have h3 : b ≠ a := fun h => h2 h.symm
        simp [putCell, findCell, h1, h2, h3, ih]

theorem findCell_putCell_other (cs : List Host.Cell) {a b : Nat} (v : Byte) (h : b ≠ a) :
    findCell (putCell cs a v) b = findCell cs b := by
  induction cs with
  | nil => simp [putCell, findCell, Ne.symm h]
  | cons c cs ih =>
    obtain ⟨d, u⟩ := c
    by_cases h1 : a < d
    · simp [putCell, findCell, h1, Ne.symm h]
    · by_cases h2 : a = d
      · subst h2
        simp [putCell, findCell, Ne.symm h]
      · simp [putCell, findCell, h1, h2, ih]

/-- Keeping the entries whose address satisfies `p` keeps just those addresses. -/
theorem findCell_filter (cs : List Host.Cell) (p : Nat → Bool) (a : Nat) :
    findCell (cs.filter fun c => p c.1) a = if p a then findCell cs a else none := by
  induction cs with
  | nil => simp [findCell]
  | cons c cs ih =>
    obtain ⟨b, u⟩ := c
    by_cases hb : p b
    · by_cases ha : b = a
      · subst ha
        simp [hb, findCell]
      · simp [hb, findCell, ha, ih]
    · by_cases ha : b = a
      · subst ha
        simp [hb, ih]
      · simp [hb, findCell, ha, ih]

theorem mem_putCell {cs : List Host.Cell} {a : Nat} {v : Byte} {c : Host.Cell} (h : c ∈ putCell cs a v) :
    c = (a, v) ∨ c ∈ cs := by
  induction cs with
  | nil => simpa [putCell] using h
  | cons d cs ih =>
    obtain ⟨b, u⟩ := d
    unfold putCell at h
    split at h
    · simpa using h
    · split at h
      · simp only [List.mem_cons] at h ⊢
        tauto
      · simp only [List.mem_cons] at h ⊢
        rcases h with h | h
        · exact .inr (.inl h)
        · rcases ih h with h | h
          · exact .inl h
          · exact .inr (.inr h)

theorem putCell_rising {cs : List Host.Cell} (h : cs.Pairwise fun c d => c.1 < d.1) (a : Nat) (v : Byte) :
    (putCell cs a v).Pairwise fun c d => c.1 < d.1 := by
  induction cs with
  | nil => simp [putCell]
  | cons c cs ih =>
    obtain ⟨b, u⟩ := c
    rw [List.pairwise_cons] at h
    unfold putCell
    split
    · next hab =>
      refine List.pairwise_cons.2 ⟨?_, List.pairwise_cons.2 h⟩
      intro d hd
      rcases List.mem_cons.1 hd with rfl | hd
      · exact hab
      · exact Nat.lt_trans hab (h.1 d hd)
    · split
      · next hab => exact List.pairwise_cons.2 ⟨fun d hd => by simpa [hab] using h.1 d hd, h.2⟩
      · next h1 h2 =>
        refine List.pairwise_cons.2 ⟨?_, ih h.2⟩
        intro d hd
        rcases mem_putCell hd with rfl | hd
        · simp only
          omega
        · exact h.1 d hd

theorem findCell_some {cs : List Host.Cell} {a : Nat} {v : Byte} (h : findCell cs a = some v) : (a, v) ∈ cs := by
  induction cs with
  | nil => simp [findCell] at h
  | cons c cs ih =>
    obtain ⟨b, u⟩ := c
    by_cases hb : b = a
    · subst hb
      simp only [findCell, if_true, Option.some.injEq] at h
      simp [h]
    · simp only [findCell, hb, if_false] at h
      simp [ih h]

theorem findCell_of_mem {cs : List Host.Cell} (hs : cs.Pairwise fun c d => c.1 < d.1) {a : Nat} {v : Byte}
    (h : (a, v) ∈ cs) : findCell cs a = some v := by
  induction cs with
  | nil => simp at h
  | cons c cs ih =>
    obtain ⟨b, u⟩ := c
    rw [List.pairwise_cons] at hs
    rcases List.mem_cons.1 h with h | h
    · simp only [Prod.mk.injEq] at h
      simp [findCell, h.1, h.2]
    · have hlt : b < a := hs.1 _ h
      have hne : b ≠ a := by omega
      simp [findCell, hne, ih hs.2 h]

/-- A rising list is what it finds. -/
theorem cells_ext {cs ds : List Host.Cell} (hc : cs.Pairwise fun c d => c.1 < d.1)
    (hd : ds.Pairwise fun c d => c.1 < d.1) (h : ∀ a, findCell cs a = findCell ds a) : cs = ds := by
  have mem : ∀ c, c ∈ cs ↔ c ∈ ds := by
    rintro ⟨a, v⟩
    constructor
    · intro hm
      exact findCell_some (h a ▸ findCell_of_mem hc hm)
    · intro hm
      exact findCell_some ((h a).symm ▸ findCell_of_mem hd hm)
  have nodup : ∀ l : List Host.Cell, l.Pairwise (fun c d => c.1 < d.1) → l.Nodup := fun l hl =>
    hl.imp fun hlt heq => by simp [heq] at hlt
  refine List.Perm.eq_of_pairwise ?_ hc hd ((List.perm_ext_iff_of_nodup (nodup _ hc) (nodup _ hd)).2 mem)
  intro a b _ _ h1 h2
  exact absurd h1 (by omega)

/-! ### Memory: read after write -/

@[simp] theorem unlisted_write (m : Memory) (a : Nat) (v : Byte) (b : Nat) :
    (m.write a v).unlisted b = m.unlisted b := by
  unfold Memory.write
  split <;> rfl

@[simp] theorem filled_write (m : Memory) (a : Nat) (v : Byte) : (m.write a v).filled = m.filled := by
  unfold Memory.write
  split <;> rfl

@[simp] theorem draw_write (m : Memory) (a : Nat) (v : Byte) : (m.write a v).draw = m.draw := by
  unfold Memory.write
  split <;> rfl

/-- A byte written is read back, and no other byte changes. -/
theorem read_write (m : Memory) (a : Nat) (v : Byte) (b : Nat) :
    (m.write a v).read b = if b = a then v else m.read b := by
  unfold Memory.write Memory.read
  split
  · next hv =>
    change (findCell (m.cells.filter fun c => c.1 != a) b).getD (m.unlisted b) = _
    rw [findCell_filter m.cells (fun x => x != a) b]
    by_cases hb : b = a
    · simp [hb, hv]
    · simp [hb]
  · by_cases hb : b = a
    · subst hb
      simp [findCell_putCell_same]
    · simp [findCell_putCell_other _ _ hb, hb, Memory.unlisted]

@[simp] theorem read_write_same (m : Memory) (a : Nat) (v : Byte) : (m.write a v).read a = v := by
  simp [read_write]

theorem read_write_other (m : Memory) {a b : Nat} (v : Byte) (h : b ≠ a) : (m.write a v).read b = m.read b := by
  simp [read_write, h]

/-- INIT's zero-fill: 0 below `n`, every other byte as it was. -/
theorem read_zeroFill (m : Memory) (n b : Nat) : (m.zeroFill n).read b = if b < n then 0 else m.read b := by
  unfold Memory.read
  change (findCell (m.cells.filter fun c => decide (n ≤ c.1)) b).getD ((m.zeroFill n).unlisted b) = _
  rw [findCell_filter m.cells (fun x => decide (n ≤ x)) b]
  by_cases hb : b < n
  · have : ¬ n ≤ b := by omega
    simp [hb, this, Memory.unlisted, Memory.zeroFill]
  · have hn : n ≤ b := by omega
    simp [hb, hn, Memory.unlisted, Memory.zeroFill]

/-- The loop of INIT's pseudocode, `for j in 0 .. n - 1: MemWrite(j, 1, 0x00)` (40_bitfield.md R73). -/
def zeroLoop : Nat → Memory → Memory
  | 0, m => m
  | n + 1, m => (zeroLoop n m).write n 0

/-- The zero-fill of the model is the spec's loop, byte for byte (log entry 7). -/
theorem zeroFill_read_eq_loop (m : Memory) (n b : Nat) : (m.zeroFill n).read b = (zeroLoop n m).read b := by
  rw [read_zeroFill]
  induction n with
  | zero => simp [zeroLoop]
  | succ n ih =>
    rw [zeroLoop, read_write, ← ih]
    by_cases h : b = n
    · simp [h]
    · by_cases h2 : b < n
      · have : b < n + 1 := by omega
        simp [h, h2, this]
      · have : ¬ b < n + 1 := by omega
        simp [h, h2, this]

/-! ### The canonical form -/

theorem write_wf {m : Memory} (h : m.wf) (a : Nat) (v : Byte) : (m.write a v).wf := by
  refine ⟨?_, ?_⟩
  · unfold Memory.write
    split
    · exact h.1.filter _
    · exact putCell_rising h.1 a v
  · intro c hc
    rw [unlisted_write]
    unfold Memory.write at hc
    split at hc
    · exact h.2 c (List.mem_filter.1 hc).1
    · next hv =>
      rcases mem_putCell hc with rfl | hc
      · exact hv
      · exact h.2 c hc

theorem zeroFill_wf {m : Memory} (h : m.wf) (n : Nat) : (m.zeroFill n).wf := by
  refine ⟨h.1.filter _, ?_⟩
  intro c hc
  obtain ⟨hm, hn⟩ := List.mem_filter.1 hc
  have hn : n ≤ c.1 := by simpa using hn
  have := h.2 c hm
  have heq : (m.zeroFill n).unlisted c.1 = m.unlisted c.1 := by
    have : ¬ c.1 < n := by omega
    simp [Memory.zeroFill, Memory.unlisted, this]
  rwa [heq]

theorem empty_wf (filled draw : Nat) : (Memory.mk [] filled draw).wf := ⟨List.Pairwise.nil, by simp⟩

/-- Two memories in canonical form, of one draw and one zero-filled part, that read the same are the same data. -/
theorem memory_ext {m n : Memory} (hm : m.wf) (hn : n.wf) (hf : m.filled = n.filled) (hd : m.draw = n.draw)
    (h : ∀ a, m.read a = n.read a) : m = n := by
  have hu : ∀ a, m.unlisted a = n.unlisted a := fun a => by simp [Memory.unlisted, hf, hd]
  have hc : ∀ a, findCell m.cells a = findCell n.cells a := by
    intro a
    have ha := h a
    unfold Memory.read at ha
    cases h1 : findCell m.cells a with
    | none =>
      cases h2 : findCell n.cells a with
      | none => rfl
      | some v =>
        rw [h1, h2] at ha
        exact absurd (by simpa [hu] using ha.symm) (hn.2 _ (findCell_some h2))
    | some u =>
      cases h2 : findCell n.cells a with
      | none =>
        rw [h1, h2] at ha
        exact absurd (by simpa [← hu] using ha) (hm.2 _ (findCell_some h1))
      | some v =>
        rw [h1, h2] at ha
        simpa using ha
  have := cells_ext hm.1 hn.1 hc
  cases m
  cases n
  simp_all

/-- Writing the byte that is there changes nothing. -/
theorem write_read_self {m : Memory} (h : m.wf) (a : Nat) : m.write a (m.read a) = m := by
  refine memory_ext (write_wf h _ _) h (by simp) (by simp) fun b => ?_
  rw [read_write]
  split
  · next hb => rw [hb]
  · rfl

/-- A write over a write of the same byte leaves the later one. -/
theorem write_write_same {m : Memory} (h : m.wf) (a : Nat) (u v : Byte) : (m.write a u).write a v = m.write a v := by
  refine memory_ext (write_wf (write_wf h _ _) _ _) (write_wf h _ _) (by simp) (by simp) fun b => ?_
  simp only [read_write]
  split <;> rfl

/-- Every listed address stays below a bound that the written address is below. -/
theorem write_cells_lt {m : Memory} {n a : Nat} (h : ∀ c ∈ m.cells, c.1 < n) (ha : a < n) (v : Byte) :
    ∀ c ∈ (m.write a v).cells, c.1 < n := by
  intro c hc
  unfold Memory.write at hc
  split at hc
  · exact h c (List.mem_filter.1 hc).1
  · rcases mem_putCell hc with rfl | hc
    · exact ha
    · exact h c hc

theorem zeroFill_cells_lt {m : Memory} (h : ∀ c ∈ m.cells, c.1 < m.filled) (n : Nat) :
    ∀ c ∈ (m.zeroFill n).cells, c.1 < (m.zeroFill n).filled := fun c hc =>
  Nat.lt_of_lt_of_le (h c (List.mem_filter.1 hc).1) (Nat.le_max_left _ _)

@[simp] theorem filled_zeroFill (m : Memory) (n : Nat) : (m.zeroFill n).filled = max m.filled n := rfl

@[simp] theorem draw_zeroFill (m : Memory) (n : Nat) : (m.zeroFill n).draw = m.draw := rfl

/-- A zero-fill done twice is the zero-fill. -/
theorem zeroFill_zeroFill (m : Memory) (n : Nat) : (m.zeroFill n).zeroFill n = m.zeroFill n := by
  simp [Memory.zeroFill, List.filter_filter]

end Sys2Proof.Laws
end

