-- ==== Sys2Proof/Laws/Bits.lean ====
section
/-! SUPPORT. The laws of bits, byte counts, 128-bit words and the reduction (20_memory.md R48, R49; 10_state.md R34;
41_reduction.md R79, R80). -/

namespace Sys2Proof.Laws

open Sys2Proof.Machine

/-! ### ceil8 -/

theorem ceil8_le {a b : Nat} (h : a ≤ b) : ceil8 a ≤ ceil8 b := by
  unfold ceil8
  omega

/-- A valid bit index lies in a byte that exists. -/
theorem div_lt_ceil8 {i n : Nat} (h : i < n) : i / 8 < ceil8 n := by
  unfold ceil8
  omega

theorem ceil8_lt_two_pow {n : Nat} (h : n < 2 ^ 128) : ceil8 n < 2 ^ 128 := by
  unfold ceil8
  omega

theorem toNat_ofNat_quad {n : Nat} (h : n < 2 ^ 128) : (BitVec.ofNat 128 n).toNat = n := by
  rw [BitVec.toNat_ofNat, Nat.mod_eq_of_lt h]

/-! ### Bits of a byte -/

theorem bitIn_eq_getLsbD (b : Byte) (i : Nat) : bitIn b i = b.getLsbD (i % 8) := by
  unfold bitIn
  rw [Bool.eq_iff_iff, beq_iff_eq]
  constructor
  · intro h
    have := congrArg (fun x => BitVec.getLsbD x 0) h
    simpa using this
  · intro h
    ext k hk
    rw [← BitVec.getLsbD_eq_getElem, ← BitVec.getLsbD_eq_getElem]
    by_cases h0 : k = 0
    · subst h0
      simp [h]
    · have : (1#8).getLsbD k = false := by
        rw [BitVec.getLsbD_one]
        simp [h0]
      simp [this]

theorem bitIn_or (a b : Byte) (i : Nat) : bitIn (a ||| b) i = (bitIn a i || bitIn b i) := by
  simp [bitIn_eq_getLsbD]

theorem bitIn_bitMask (i k : Nat) : bitIn (bitMask i) k = decide (k % 8 = i % 8) := by
  rw [bitIn_eq_getLsbD, bitMask, BitVec.getLsbD_shiftLeft, BitVec.getLsbD_one, Bool.eq_iff_iff]
  simp only [Bool.and_eq_true, decide_eq_true_eq, Bool.not_eq_true', decide_eq_false_iff_not]
  omega

@[simp] theorem bitIn_zero (i : Nat) : bitIn 0 i = false := by simp [bitIn_eq_getLsbD]

/-! ### Words of a 128-bit value -/

theorem getLsbD_quadOf (x3 x2 x1 x0 : Word) (i : Nat) :
    (quadOf x3 x2 x1 x0).getLsbD i =
      if i < 32 then x0.getLsbD i
      else if i < 64 then x1.getLsbD (i - 32)
      else if i < 96 then x2.getLsbD (i - 64)
      else x3.getLsbD (i - 96) := by
  unfold quadOf
  rw [BitVec.getLsbD_append, BitVec.getLsbD_append, BitVec.getLsbD_append]
  by_cases h1 : i < 32
  · simp [h1]
  · by_cases h2 : i < 64
    · have : i - 32 < 32 := by omega
      simp [h1, h2, this]
    · by_cases h3 : i < 96
      · have ha : ¬ i - 32 < 32 := by omega
        have hb : i - 64 < 32 := by omega
        have hc : i - 32 - 32 = i - 64 := by omega
        simp only [h1, h2, h3, ha, hc, hb, if_false, if_true]
      · have ha : ¬ i - 32 < 32 := by omega
        have hb : ¬ i - 32 - 32 < 32 := by omega
        have hc : i - 32 - 32 - 32 = i - 96 := by omega
        simp [h1, h2, h3, ha, hb, hc]

theorem wordOf_quadOf (x3 x2 x1 x0 : Word) (k : Fin 4) :
    wordOf (quadOf x3 x2 x1 x0) k = if k = 3 then x3 else if k = 2 then x2 else if k = 1 then x1 else x0 := by
  have key : ∀ j, (wordOf (quadOf x3 x2 x1 x0) k).getLsbD j =
      (decide (j < 32) && (quadOf x3 x2 x1 x0).getLsbD (32 * k.val + j)) := fun j => by
    simp [wordOf, BitVec.getLsbD_extractLsb']
  apply BitVec.eq_of_getLsbD_eq
  intro j hj
  rw [key, getLsbD_quadOf]
  obtain ⟨k, hk⟩ := k
  have : k = 0 ∨ k = 1 ∨ k = 2 ∨ k = 3 := by omega
  rcases this with rfl | rfl | rfl | rfl
  · simp [hj]
  · have h1 : ¬ 32 + j < 32 := by omega
    have h2 : 32 + j < 64 := by omega
    simp [hj, h2]
  · have h1 : ¬ 64 + j < 32 := by omega
    have h2 : ¬ 64 + j < 64 := by omega
    have h3 : 64 + j < 96 := by omega
    simp [hj, h1, h3]
  · have h1 : ¬ 96 + j < 32 := by omega
    have h2 : ¬ 96 + j < 64 := by omega
    simp [hj, h1, h2]

/-- The four words of a value make it up again. -/
theorem quadOf_wordOf (x : Quad) : quadOf (wordOf x 3) (wordOf x 2) (wordOf x 1) (wordOf x 0) = x := by
  apply BitVec.eq_of_getLsbD_eq
  intro i hi
  rw [getLsbD_quadOf]
  simp only [wordOf, BitVec.getLsbD_extractLsb']
  split
  · next h => simp [h]
  · split
    · have h1 : i - 32 < 32 := by omega
      have h2 : 32 + (i - 32) = i := by omega
      simp [h1, h2]
    · split
      · have h1 : i - 64 < 32 := by omega
        have h2 : 64 + (i - 64) = i := by omega
        simp [h1, h2]
      · have h1 : i - 96 < 32 := by omega
        have h2 : 96 + (i - 96) = i := by omega
        simp [h1, h2]

/-- A word written is read back, and no other word changes. -/
theorem wordOf_setWordOf (x : Quad) (k j : Fin 4) (w : Word) :
    wordOf (setWordOf x k w) j = if j = k then w else wordOf x j := by
  rw [setWordOf, wordOf_quadOf]
  fin_cases k <;> fin_cases j <;> simp

/-! ### The reduction -/

/-- Floor modulo by a positive size is the non-negative remainder. -/
theorem red_eq_emod (x : Quad) (m : HMode) {n : Nat} (h : 1 ≤ n) : (red x m n : Int) = hashValue m x % (n : Int) := by
  have h0 : (0 : Int) ≤ n := by omega
  have hn : (n : Int) ≠ 0 := by omega
  rw [red, Int.fmod_eq_emod_of_nonneg _ h0]
  exact Int.toNat_of_nonneg (Int.emod_nonneg _ hn)

/-- A reduced index is below the size. -/
theorem red_lt (x : Quad) (m : HMode) {n : Nat} (h : 1 ≤ n) : red x m n < n := by
  have h1 := red_eq_emod x m h
  have h2 : hashValue m x % (n : Int) < n := Int.emod_lt_of_pos _ (by omega)
  omega

theorem hashIndex_lt {s : State} (h : 1 ≤ s.size.toNat) : hashIndex s < s.size.toNat := red_lt _ _ h

/-! ### Bits of a 128-bit value with one word replaced -/

theorem getLsbD_setWordOf (x : Quad) (k : Fin 4) (w : Word) (b : Nat) :
    (setWordOf x k w).getLsbD b =
      if 32 * k.val ≤ b ∧ b < 32 * k.val + 32 then w.getLsbD (b - 32 * k.val) else x.getLsbD b := by
  by_cases hb : b < 128
  · have key : ∀ y : Quad, ∀ b (hb : b < 128), y.getLsbD b = (wordOf y ⟨b / 32, by omega⟩).getLsbD (b % 32) := by
      intro y b hb
      have h1 : b % 32 < 32 := by omega
      have h2 : 32 * (b / 32) + b % 32 = b := by omega
      simp [wordOf, h1, h2]
    rw [key _ b hb, key x b hb, wordOf_setWordOf]
    split
    · next h =>
      have : b / 32 = k.val := congrArg Fin.val h
      rw [if_pos (by omega)]
      congr 1
      omega
    · next h =>
      have : b / 32 ≠ k.val := fun hh => h (Fin.ext hh)
      rw [if_neg (by omega)]
  · have : ¬ (32 * k.val ≤ b ∧ b < 32 * k.val + 32) := by omega
    rw [if_neg this, BitVec.getLsbD_of_ge _ _ (by omega), BitVec.getLsbD_of_ge _ _ (by omega)]

/-- The four words of `x`, written in order, leave `x`. -/
theorem setWordOf_all (x y : Quad) :
    setWordOf (setWordOf (setWordOf (setWordOf y 0 (wordOf x 0)) 1 (wordOf x 1)) 2 (wordOf x 2)) 3 (wordOf x 3) = x := by
  refine (quadOf_wordOf _).symm.trans ?_
  simp only [wordOf_setWordOf]
  exact quadOf_wordOf x

/-! ### The fields of STATUS -/

@[simp] theorem statusWord_cfg (s : State) : (statusWord s).getLsbD 0 = s.cfg := by
  simp only [statusWord, BitVec.getLsbD_append]
  cases s.cfg <;> rfl

@[simp] theorem statusWord_result (s : State) : (statusWord s).getLsbD 1 = s.result := by
  simp only [statusWord, BitVec.getLsbD_append]
  cases s.result <;> rfl

@[simp] theorem statusWord_err (s : State) : (statusWord s).getLsbD 2 = s.err := by
  simp only [statusWord, BitVec.getLsbD_append]
  cases s.err <;> rfl

@[simp] theorem resultBit_statusWord (s : State) : resultBit (statusWord s) = s.result := statusWord_result s

@[simp] theorem statusWord_errcode (s : State) : (statusWord s).extractLsb' 4 4 = s.errcode.toBits := by
  apply BitVec.eq_of_getLsbD_eq
  intro i hi
  rw [BitVec.getLsbD_extractLsb', statusWord]
  simp only [BitVec.getLsbD_append]
  interval_cases i <;> simp

@[simp] theorem statusWord_errop (s : State) : (statusWord s).extractLsb' 8 8 = s.errop := by
  apply BitVec.eq_of_getLsbD_eq
  intro i hi
  rw [BitVec.getLsbD_extractLsb', statusWord]
  simp only [BitVec.getLsbD_append]
  interval_cases i <;> simp

end Sys2Proof.Laws
end

