-- ==== Sys2Proof/Laws/Ops.lean ====
section
/-! SUPPORT. What the shared operations and each command's meaning do, said once: the other proofs cite these and unfold
none of them (20_memory.md R47, R58; 40_bitfield.md; 41_reduction.md; 42_byte_access.md; 43_control.md). -/

namespace Sys2Proof.Laws

open Sys2Proof.Machine

/-! ### The shared operations -/

theorem raiseError_eq (op : Byte) (c : ErrCode) (s : State) : raiseError op c s = .next (s.recordError op c) := rfl

theorem memRead_of_lt {j : Nat} {s : State} (h : j < s.nbytesMax) (k : Byte → Outcome) :
    memRead j s k = k (s.array.read j) := by simp only [memRead, h, if_true]

theorem memWrite_of_lt {j : Nat} {s : State} (h : j < s.nbytesMax) (v : Byte) (k : State → Outcome) :
    memWrite j v s k = k (s.setArray (s.array.write j v)) := by simp only [memWrite, h, if_true]

/-- The array after `v` is ORed into byte `j`. -/
abbrev orred (s : State) (j : Nat) (v : Byte) : State := s.setArray (s.array.write j (s.array.read j ||| v))

theorem orIntoByte_of_lt {j : Nat} {s : State} (h : j < s.nbytesMax) (v : Byte) (k : State → Outcome) :
    orIntoByte j v s k = k (orred s j v) := by
  rw [orIntoByte, memRead_of_lt h, memWrite_of_lt h]

theorem orIntoByte_of_ge {j : Nat} {s : State} (h : ¬ j < s.nbytesMax) (v : Byte) (k : State → Outcome) :
    orIntoByte j v s k = .fault (.noSuchArrayByte j) := by
  simp only [orIntoByte, memRead, h, if_false]

theorem setBitOp_of_lt {i : Nat} {s : State} (h : i / 8 < s.nbytesMax) :
    setBitOp i s = .next ((orred s (i / 8) (bitMask i)).setIdx i) := by
  rw [setBitOp, orIntoByte_of_lt h]

theorem getBitOp_of_lt {i : Nat} {s : State} (h : i / 8 < s.nbytesMax) :
    getBitOp i s = .next ((s.setResult (s.bit i)).setIdx i) := by
  rw [getBitOp, memRead_of_lt h, State.bit_eq]

/-- A bit set that answers a next state found its byte, and left this one. -/
theorem setBitOp_next {i : Nat} {s t : State} (h : setBitOp i s = .next t) :
    i / 8 < s.nbytesMax ∧ t = (orred s (i / 8) (bitMask i)).setIdx i := by
  by_cases hj : i / 8 < s.nbytesMax
  · rw [setBitOp_of_lt hj] at h
    exact ⟨hj, by simpa using h.symm⟩
  · rw [setBitOp, orIntoByte_of_ge hj] at h
    simp at h

theorem getBitOp_next {i : Nat} {s t : State} (h : getBitOp i s = .next t) :
    i / 8 < s.nbytesMax ∧ t = (s.setResult (s.bit i)).setIdx i := by
  by_cases hj : i / 8 < s.nbytesMax
  · rw [getBitOp_of_lt hj] at h
    exact ⟨hj, by simpa using h.symm⟩
  · simp [getBitOp, memRead, hj] at h

theorem whenConfigured_of_cfg {s : State} (h : s.cfg = true) (i : Instr) (k : Outcome) :
    whenConfigured i s k = k := by simp [whenConfigured, h]

theorem whenConfigured_of_not_cfg {s : State} (h : s.cfg = false) (i : Instr) (k : Outcome) :
    whenConfigured i s k = .next (s.recordError (opcodeOf i) .notConfigured) := by
  simp [whenConfigured, h, raiseError_eq]

/-! ### What each command can do -/

/-- Every way a command ends in a next state: the recorded error, or its own effect. -/
inductive Effect (s : State) : Instr → State → Prop where
  | failed {i : Instr} {c : ErrCode} (he : errorOf i s = some c) : Effect s i (s.recordError (opcodeOf i) c)
  | nop : Effect s .nop s
  | init (h1 : 1 ≤ s.operand.toNat) (h2 : s.operand.toNat ≤ s.cap.toNat) :
      Effect s .init ((s.setArray (s.array.zeroFill (ceil8 s.operand.toNat))).configure s.operand.toNat)
  | setb (hc : s.cfg = true) (hi : s.operand.toNat < s.size.toNat) (hj : s.operand.toNat / 8 < s.nbytesMax) :
      Effect s .setb ((orred s (s.operand.toNat / 8) (bitMask s.operand.toNat)).setIdx s.operand.toNat)
  | getb (hc : s.cfg = true) (hi : s.operand.toNat < s.size.toNat) (hj : s.operand.toNat / 8 < s.nbytesMax) :
      Effect s .getb ((s.setResult (s.bit s.operand.toNat)).setIdx s.operand.toNat)
  | reduce (hc : s.cfg = true) : Effect s .reduce (s.setIdx (hashIndex s))
  | seth (hc : s.cfg = true) (hj : hashIndex s / 8 < s.nbytesMax) :
      Effect s .seth ((orred s (hashIndex s / 8) (bitMask (hashIndex s))).setIdx (hashIndex s))
  | geth (hc : s.cfg = true) (hj : hashIndex s / 8 < s.nbytesMax) :
      Effect s .geth ((s.setResult (s.bit (hashIndex s))).setIdx (hashIndex s))
  | rdbyte (hc : s.cfg = true) (hi : s.operand.toNat < s.bytes.toNat) (hj : s.operand.toNat < s.nbytesMax) :
      Effect s .rdbyte (s.setData (s.array.read s.operand.toNat))
  | orbyte (hc : s.cfg = true) (hi : s.operand.toNat < s.bytes.toNat) (hj : s.operand.toNat < s.nbytesMax) :
      Effect s .orbyte (orred s s.operand.toNat s.data)
  | clrerr : Effect s .clrerr s.clearError

theorem execInit_effect {s t : State} (h : execInit s = .next t) : Effect s .init t := by
  unfold execInit sizeOperand at h
  split at h
  · next hn =>
    rw [raiseError_eq, Host.Outcome.next.injEq] at h
    exact h ▸ .failed (by simp [errorOf, hn])
  · next hn =>
    rw [Host.Outcome.next.injEq] at h
    exact h ▸ .init (by omega) (by omega)

theorem execSetb_effect {s t : State} (h : execSetb s = .next t) : Effect s .setb t := by
  cases hc : s.cfg with
  | false =>
    rw [execSetb, whenConfigured_of_not_cfg hc, Host.Outcome.next.injEq] at h
    exact h ▸ .failed (by simp [errorOf, hc])
  | true =>
    rw [execSetb, whenConfigured_of_cfg hc] at h
    split at h
    · next hi =>
      rw [raiseError_eq, Host.Outcome.next.injEq] at h
      exact h ▸ .failed (by simp [errorOf, hc, show s.size.toNat ≤ s.operand.toNat from hi])
    · next hi =>
      obtain ⟨hj, rfl⟩ := setBitOp_next h
      exact .setb hc (Nat.lt_of_not_le hi) hj

theorem execGetb_effect {s t : State} (h : execGetb s = .next t) : Effect s .getb t := by
  cases hc : s.cfg with
  | false =>
    rw [execGetb, whenConfigured_of_not_cfg hc, Host.Outcome.next.injEq] at h
    exact h ▸ .failed (by simp [errorOf, hc])
  | true =>
    rw [execGetb, whenConfigured_of_cfg hc] at h
    split at h
    · next hi =>
      rw [raiseError_eq, Host.Outcome.next.injEq] at h
      exact h ▸ .failed (by simp [errorOf, hc, show s.size.toNat ≤ s.operand.toNat from hi])
    · next hi =>
      obtain ⟨hj, rfl⟩ := getBitOp_next h
      exact .getb hc (Nat.lt_of_not_le hi) hj

theorem execReduce_effect {s t : State} (h : execReduce s = .next t) : Effect s .reduce t := by
  cases hc : s.cfg with
  | false =>
    rw [execReduce, whenConfigured_of_not_cfg hc, Host.Outcome.next.injEq] at h
    exact h ▸ .failed (by simp [errorOf, hc])
  | true =>
    rw [execReduce, whenConfigured_of_cfg hc, Host.Outcome.next.injEq] at h
    exact h ▸ .reduce hc

theorem execSeth_effect {s t : State} (h : execSeth s = .next t) : Effect s .seth t := by
  cases hc : s.cfg with
  | false =>
    rw [execSeth, whenConfigured_of_not_cfg hc, Host.Outcome.next.injEq] at h
    exact h ▸ .failed (by simp [errorOf, hc])
  | true =>
    rw [execSeth, whenConfigured_of_cfg hc] at h
    obtain ⟨hj, rfl⟩ := setBitOp_next h
    exact .seth hc hj

theorem execGeth_effect {s t : State} (h : execGeth s = .next t) : Effect s .geth t := by
  cases hc : s.cfg with
  | false =>
    rw [execGeth, whenConfigured_of_not_cfg hc, Host.Outcome.next.injEq] at h
    exact h ▸ .failed (by simp [errorOf, hc])
  | true =>
    rw [execGeth, whenConfigured_of_cfg hc] at h
    obtain ⟨hj, rfl⟩ := getBitOp_next h
    exact .geth hc hj

theorem execRdbyte_effect {s t : State} (h : execRdbyte s = .next t) : Effect s .rdbyte t := by
  cases hc : s.cfg with
  | false =>
    rw [execRdbyte, whenConfigured_of_not_cfg hc, Host.Outcome.next.injEq] at h
    exact h ▸ .failed (by simp [errorOf, hc])
  | true =>
    rw [execRdbyte, whenConfigured_of_cfg hc] at h
    split at h
    · next hi =>
      rw [raiseError_eq, Host.Outcome.next.injEq] at h
      exact h ▸ .failed (by simp [errorOf, hc, show s.bytes.toNat ≤ s.operand.toNat from hi])
    · next hi =>
      by_cases hj : byteIndex s < s.nbytesMax
      · rw [memRead_of_lt hj, Host.Outcome.next.injEq] at h
        exact h ▸ .rdbyte hc (Nat.lt_of_not_le hi) hj
      · simp [memRead, hj] at h

theorem execOrbyte_effect {s t : State} (h : execOrbyte s = .next t) : Effect s .orbyte t := by
  cases hc : s.cfg with
  | false =>
    rw [execOrbyte, whenConfigured_of_not_cfg hc, Host.Outcome.next.injEq] at h
    exact h ▸ .failed (by simp [errorOf, hc])
  | true =>
    rw [execOrbyte, whenConfigured_of_cfg hc] at h
    split at h
    · next hi =>
      rw [raiseError_eq, Host.Outcome.next.injEq] at h
      exact h ▸ .failed (by simp [errorOf, hc, show s.bytes.toNat ≤ s.operand.toNat from hi])
    · next hi =>
      by_cases hj : byteIndex s < s.nbytesMax
      · rw [orIntoByte_of_lt hj, Host.Outcome.next.injEq] at h
        exact h ▸ .orbyte hc (Nat.lt_of_not_le hi) hj
      · rw [orIntoByte_of_ge hj] at h
        simp at h

/-- The inversion of exec: a command that answers a next state had one of the effects above. -/
theorem exec_effect {i : Instr} {s t : State} (h : exec i s = .next t) : Effect s i t := by
  cases i with
  | nop => exact (Host.Outcome.next.injEq s t ▸ h : s = t) ▸ .nop
  | init => exact execInit_effect h
  | setb => exact execSetb_effect h
  | getb => exact execGetb_effect h
  | reduce => exact execReduce_effect h
  | seth => exact execSeth_effect h
  | geth => exact execGeth_effect h
  | rdbyte => exact execRdbyte_effect h
  | orbyte => exact execOrbyte_effect h
  | clrerr => exact (Host.Outcome.next.injEq s.clearError t ▸ h : s.clearError = t) ▸ .clrerr

/-- A command's own effect, once no error stops it (60_exceptions.md R96). -/
def body (i : Instr) (s : State) : Outcome :=
  match i with
  | .nop => .next s
  | .init => .next ((s.setArray (s.array.zeroFill (ceil8 s.operand.toNat))).configure s.operand.toNat)
  | .setb => setBitOp s.operand.toNat s
  | .getb => getBitOp s.operand.toNat s
  | .reduce => .next (s.setIdx (hashIndex s))
  | .seth => setBitOp (hashIndex s) s
  | .geth => getBitOp (hashIndex s) s
  | .rdbyte => memRead s.operand.toNat s fun b => .next (s.setData b)
  | .orbyte => orIntoByte s.operand.toNat s.data s fun t => .next t
  | .clrerr => .next s.clearError

/-- A command with no error condition has its own effect. -/
theorem exec_of_noError {i : Instr} {s : State} (h : errorOf i s = none) : exec i s = body i s := by
  cases i with
  | nop => rfl
  | clrerr => rfl
  | init =>
    have hn : ¬ (sizeOperand s = 0 ∨ s.cap.toNat < sizeOperand s) := by
      intro hn
      simp [errorOf, show s.operand.toNat = 0 ∨ s.cap.toNat < s.operand.toNat from hn] at h
    exact if_neg hn
  | setb | getb | rdbyte | orbyte =>
    simp only [errorOf] at h
    split at h <;> simp only [reduceCtorEq, ite_eq_right_iff, imp_false] at h
    next hc => exact (whenConfigured_of_cfg (by simpa using hc) _ _).trans (if_neg h)
  | reduce | seth | geth =>
    simp only [errorOf, ite_eq_right_iff, reduceCtorEq, imp_false, Bool.not_eq_false] at h
    exact whenConfigured_of_cfg h _ _

/-! ### The bits and bytes an update leaves -/

/-- One bit set: that bit, and no other. -/
theorem bit_orred (s : State) (i k : Nat) : (orred s (i / 8) (bitMask i)).bit k = (s.bit k || k == i) := by
  simp only [State.bit_eq, State.setArray_array, read_write]
  split
  · next h =>
    rw [bitIn_or, bitIn_bitMask, ← h]
    congr 1
    rw [Bool.eq_iff_iff, decide_eq_true_iff, beq_iff_eq]
    omega
  · next h =>
    have : ¬ k = i := fun hk => h (hk ▸ rfl)
    simp [this]

/-- ORing into a byte clears no bit. -/
theorem bit_orred_mono {s : State} (j : Nat) (v : Byte) {k : Nat} (h : s.bit k = true) : (orred s j v).bit k = true := by
  simp only [State.bit_eq, State.setArray_array, read_write] at *
  split
  · next hk => rw [bitIn_or, ← hk, h, Bool.true_or]
  · exact h

/-- ORing a byte twice is ORing it once. -/
theorem orred_twice {s : State} (h : s.array.wf) (j : Nat) (v : Byte) : orred (orred s j v) j v = orred s j v := by
  have : (orred s j v).array.write j ((orred s j v).array.read j ||| v) = s.array.write j (s.array.read j ||| v) := by
    simp only [State.setArray_array, read_write_same, BitVec.or_assoc, BitVec.or_self]
    exact write_write_same h _ _ _
  exact congrArg (fun m => s.setArray m) this

/-- A valid bit index of a configured array lies in a byte of the array, which exists. -/
theorem index_byte {s : State} (h : s.Inv) (hc : s.cfg = true) {i : Nat} (hi : i < s.size.toNat) :
    i / 8 < s.bytes.toNat ∧ i / 8 < s.nbytesMax := by
  have h2 := h.2.1.1 hc
  have := div_lt_ceil8 hi
  omega

theorem recordError_withHost (s : State) (es : List HostEvent) (op : Byte) (c : ErrCode) :
    (s.withHost es).recordError op c = (s.recordError op c).withHost es := by
  cases he : s.err with
  | true =>
    exact (State.recordError_of_err (s.withHost es) _ _ he).trans
      (congrArg (·.withHost es) (State.recordError_of_err s _ _ he)).symm
  | false =>
    exact (State.recordError_of_not_err (s.withHost es) _ _ he).trans
      (congrArg (·.withHost es) (State.recordError_of_not_err s _ _ he)).symm

end Sys2Proof.Laws
end

