-- ==== Sys2Proof/Laws/PerInstr.lean ====
section
/-! SUPPORT. What holds of every command as syntax, one lemma a constructor: its word decodes back to it, and its row of
the opcode table reads it (30_encoding.md R64, R65). -/

namespace Sys2Proof.Laws.Encoding

/-- The word of `i` decodes to `i`, and so does its row of the opcode table. -/
def Statement (i : Instr) : Prop := decode (encode i) = .ok i ∧ decodeTableWord 32 (encode i).toNat = some i

theorem nop : Statement .nop := ⟨rfl, rfl⟩
theorem init : Statement .init := ⟨rfl, rfl⟩
theorem setb : Statement .setb := ⟨rfl, rfl⟩
theorem getb : Statement .getb := ⟨rfl, rfl⟩
theorem reduce : Statement .reduce := ⟨rfl, rfl⟩
theorem seth : Statement .seth := ⟨rfl, rfl⟩
theorem geth : Statement .geth := ⟨rfl, rfl⟩
theorem rdbyte : Statement .rdbyte := ⟨rfl, rfl⟩
theorem orbyte : Statement .orbyte := ⟨rfl, rfl⟩
theorem clrerr : Statement .clrerr := ⟨rfl, rfl⟩

end Sys2Proof.Laws.Encoding
end

