-- ==== Sys2Proof/Laws/Step.lean ====
section
/-! SUPPORT. What one host event and one step can do, said once (20_memory.md R46, R52 to R56;
70_reset_and_hazards.md R111, R116). -/

namespace Sys2Proof.Laws

open Sys2Proof.Machine

/-! ### The window -/

theorem ofOffset_offset (r : Reg) : Reg.ofOffset r.offset = some r := by
  cases r with
  | ctrl => rfl
  | status => rfl
  | cmd => rfl
  | data => rfl
  | wide x k => cases x <;> fin_cases k <;> rfl

/-- Every register stands at one offset. -/
theorem offset_of_ofOffset : ∀ off r, Reg.ofOffset off = some r → off = r.offset := by
  intro off r h
  unfold Reg.ofOffset at h
  split at h
  all_goals cases h
  all_goals exact BitVec.eq_of_toNat_eq ‹_›

theorem target_offset (r : Reg) : target (.bits 32) r.offset = some r := by
  have h : r.offset.toNat % 4 = 0 := by
    cases r with
    | ctrl => rfl
    | status => rfl
    | cmd => rfl
    | data => rfl
    | wide x k => cases x <;> fin_cases k <;> rfl
  simp [target, h, ofOffset_offset]

theorem target_some {width : Width} {off : Offset} {r : Reg} (h : target width off = some r) :
    width = .bits 32 ∧ off = r.offset := by
  unfold target at h
  split at h
  · next hw => exact ⟨hw.1, offset_of_ofOffset _ _ h⟩
  · simp at h

/-! ### One host event -/

/-- Every way a host event ends in a next state. -/
inductive EventEffect (s : State) : HostEvent → State → Prop where
  | readAnswered {width off} (r : Response) : EventEffect s (.read width off) (s.respond r)
  | writeStored {r : Reg} (hr : r ≠ .cmd) (w : Word) :
      EventEffect s (.write (.bits 32) r.offset w) (writeReg r w (s.respond .done))
  | writeRefused {width off} (w : Word) (h : target width off = none) :
      EventEffect s (.write width off w) (s.respond .busError)
  | command {w : Word} {i : Instr} {t : State} (hw : decode w = .ok i) (he : exec i (s.respond .done) = .next t) :
      EventEffect s (commandAccess w) t
  | illegal {w : Word} {d : DecodeError} (hw : decode w = .error d) :
      EventEffect s (commandAccess w) ((s.respond .done).recordError (opcField w) .illegalCommand)
  | reset : EventEffect s .reset s.afterReset

theorem perform_read (s : State) (width : Width) (off : Offset) :
    perform (.read width off) s =
      .next (s.respond (match target width off with | some r => .data (readReg r s) | none => .busError)) := by
  simp only [perform]
  split <;> simp [*]

theorem perform_command (s : State) (w : Word) : perform (commandAccess w) s = execWord w (s.respond .done) := rfl

theorem perform_write_reg {r : Reg} (hr : r ≠ .cmd) (s : State) (w : Word) :
    perform (.write (.bits 32) r.offset w) s = .next (writeReg r w (s.respond .done)) := by
  cases r <;> simp_all [perform, target_offset]

theorem perform_write_none {width : Width} {off : Offset} (h : target width off = none) (s : State) (w : Word) :
    perform (.write width off w) s = .next (s.respond .busError) := by
  simp [perform, h]

theorem execWord_ok {w : Word} {i : Instr} (h : decode w = .ok i) (s : State) : execWord w s = exec i s := by
  simp [execWord, h]

theorem execWord_error {w : Word} {d : DecodeError} (h : decode w = .error d) (s : State) :
    execWord w s = .next (s.recordError (opcField w) .illegalCommand) := by
  simp [execWord, h, execIllegal, raiseError_eq]

/-- The inversion of perform. -/
theorem perform_effect {e : HostEvent} {s t : State} (h : perform e s = .next t) : EventEffect s e t := by
  cases e with
  | read width off =>
    rw [perform_read, Host.Outcome.next.injEq] at h
    exact h ▸ .readAnswered _
  | write width off w =>
    cases ht : target width off with
    | none =>
      rw [perform_write_none ht, Host.Outcome.next.injEq] at h
      exact h ▸ .writeRefused w ht
    | some r =>
      obtain ⟨rfl, rfl⟩ := target_some ht
      by_cases hr : r = .cmd
      · subst hr
        change perform (commandAccess w) s = _ at h
        change EventEffect s (commandAccess w) t
        rw [perform_command] at h
        cases hw : decode w with
        | ok i =>
          rw [execWord_ok hw] at h
          exact .command hw h
        | error d =>
          rw [execWord_error hw, Host.Outcome.next.injEq] at h
          exact h ▸ .illegal hw
      · rw [perform_write_reg hr, Host.Outcome.next.injEq] at h
        exact h ▸ .writeStored hr w
  | reset =>
    rw [perform, Host.Outcome.next.injEq] at h
    exact h ▸ .reset

/-! ### One step -/

theorem step_nil {s : State} (h : s.host = []) : step s = .next s := by simp [step, h]

theorem step_cons {s : State} {e : HostEvent} {rest : List HostEvent} (h : s.host = e :: rest) :
    step s = perform e (s.withHost rest) := by simp [step, h]

/-- The inversion of step: nothing to do, or the first event still to come had one of its effects. -/
theorem step_effect {s t : State} (h : step s = .next t) :
    (s.host = [] ∧ t = s) ∨ ∃ e rest, s.host = e :: rest ∧ EventEffect (s.withHost rest) e t := by
  cases hh : s.host with
  | nil =>
    rw [step_nil hh, Host.Outcome.next.injEq] at h
    exact .inl ⟨rfl, h.symm⟩
  | cons e rest =>
    rw [step_cons hh] at h
    exact .inr ⟨e, rest, rfl, perform_effect h⟩

/-- Running steps is the host's run of the block. -/
theorem runSteps_eq_run (k : Nat) (s : State) : runSteps k s = Sys2Proof.core.run k s := by
  induction k generalizing s with
  | zero => rfl
  | succ k ih =>
    refine Eq.trans ?_ (Host.Core.run.eq_2 Sys2Proof.core s k).symm
    unfold runSteps
    cases hs : step s with
    | next t =>
      have h : Sys2Proof.core.step s = .next t := hs
      rw [h]
      exact ih t
    | fault f =>
      have h : Sys2Proof.core.step s = .fault f := hs
      rw [h]
      rfl
    | refused r =>
      have h : Sys2Proof.core.step s = .refused r := hs
      rw [h]
      rfl

theorem runSteps_succ {k : Nat} {s t : State} (h : step s = .next t) : runSteps (k + 1) s = runSteps k t := by
  simp [runSteps, h]

/-- A run of `k + 1` steps that answers a next state took a first step. -/
theorem runSteps_succ_next {k : Nat} {s u : State} (h : runSteps (k + 1) s = .next u) :
    ∃ t, step s = .next t ∧ runSteps k t = .next u := by
  cases hs : step s with
  | next t =>
    rw [runSteps_succ hs] at h
    exact ⟨t, rfl, h⟩
  | fault f => simp [runSteps, hs] at h
  | refused r => simp [runSteps, hs] at h

/-- An invariant of every step is an invariant of every run. -/
theorem runSteps_invariant {P : State → Prop} (hP : ∀ s t, P s → step s = .next t → P t) {k : Nat} {s u : State}
    (hs : P s) (h : runSteps k s = .next u) : P u := by
  induction k generalizing s with
  | zero =>
    simp only [runSteps, Host.Outcome.next.injEq] at h
    exact h ▸ hs
  | succ k ih =>
    obtain ⟨t, h1, h2⟩ := runSteps_succ_next h
    exact ih (hP s t hs h1) h2

/-! ### A list of events -/

theorem performAll_cons {e : HostEvent} {es : List HostEvent} {s t : State} (h : perform e s = .next t) :
    performAll (e :: es) s = performAll es t := by
  simp [performAll, h]

theorem performAll_append {es fs : List HostEvent} {s t : State} (h : performAll es s = .next t) :
    performAll (es ++ fs) s = performAll fs t := by
  induction es generalizing s with
  | nil =>
    simp only [performAll, Host.Outcome.next.injEq] at h
    simp [h]
  | cons e es ih =>
    cases hp : perform e s with
    | next u =>
      rw [performAll_cons hp] at h
      rw [List.cons_append, performAll_cons hp, ih h]
    | fault f => simp [performAll, hp] at h
    | refused r => simp [performAll, hp] at h

theorem performAll_single (e : HostEvent) (s : State) : performAll [e] s = perform e s := by
  rw [performAll]
  cases perform e s <;> rfl

theorem transcript_cons (l : HostLine) (ls : List HostLine) : transcript (l :: ls) = l.expand ++ transcript ls := by
  simp [transcript]

/-! ### The accesses of host assembly -/

theorem perform_rd (r : Reg) (s : State) :
    perform (read32 r.offset) s = .next (s.respond (.data (readReg r s))) := by
  refine (perform_read s (.bits 32) r.offset).trans ?_
  rw [target_offset]

theorem perform_operand0 (s : State) (w : Word) :
    perform (write32 0x10 w) s = .next ((s.respond .done).setOperand (setWordOf s.operand 0 w)) :=
  perform_write_reg (r := .wide .operand 0) (by simp) s w

theorem perform_operand1 (s : State) (w : Word) :
    perform (write32 0x14 w) s = .next ((s.respond .done).setOperand (setWordOf s.operand 1 w)) :=
  perform_write_reg (r := .wide .operand 1) (by simp) s w

theorem perform_operand2 (s : State) (w : Word) :
    perform (write32 0x18 w) s = .next ((s.respond .done).setOperand (setWordOf s.operand 2 w)) :=
  perform_write_reg (r := .wide .operand 2) (by simp) s w

theorem perform_operand3 (s : State) (w : Word) :
    perform (write32 0x1C w) s = .next ((s.respond .done).setOperand (setWordOf s.operand 3 w)) :=
  perform_write_reg (r := .wide .operand 3) (by simp) s w

theorem perform_dataWrite (s : State) (w : Word) :
    perform (write32 0x0C w) s = .next ((s.respond .done).setData (w.extractLsb' 0 8)) :=
  perform_write_reg (r := .data) (by simp) s w

end Sys2Proof.Laws
end

