-- ==== Sys2Proof/Tests/Slice0.lean ====
section
/-! SUPPORT. The model's own tests: ill-formed terms refused, words of 30_encoding.md decoded, vectors of
95_test_vectors.md (the expected values are the spec's, not the model's), and a witness for the hypotheses of every
statement that has any. -/

namespace Sys2Proof.Tests

open Sys2Proof.Machine

/-! ### States (95_test_vectors.md, conventions and section 2) -/

/-- "Reset" of 95_test_vectors.md: NBITS_MAX = 16384. -/
def blank : State := { State.reset with cap := 0x4000 }

/-- "S10": reset then INIT 10. -/
def s10 : State := { blank with cfg := true, size := 10, bytes := 2, operand := 10, array := ⟨[], 2, 0⟩ }

/-- "S10+3": S10 then SETB 3. -/
def s103 : State := { s10 with operand := 3, idx := 3, array := ⟨[(0, 0x08)], 2, 0⟩ }

/-- A state with an operand loaded. -/
def withOperand (s : State) (v : Nat) : State := { s with operand := BitVec.ofNat 128 v }

/-- A state with host events to come. -/
def withEvents (s : State) (es : List HostEvent) : State := { s with host := es }

/-- A state that breaks 10_state.md R39: a size above the capacity. -/
def broken : State := { s10 with cap := 8, size := 16, operand := 8 }

/-- The state an outcome goes on to. -/
def next? : Outcome → Option State
  | .next t => some t
  | .fault _ => none
  | .refused _ => none

/-- STATUS after an outcome. -/
def status? (o : Outcome) : Option Word := (next? o).map statusWord

/-- The first two bytes of the array after an outcome. -/
def bytes? (o : Outcome) : Option (Byte × Byte) := (next? o).map fun t => (t.array.read 0, t.array.read 1)

/-- IDX after an outcome. -/
def idx? (o : Outcome) : Option Nat := (next? o).map fun t => t.idx.toNat

/-! ### Well-formedness: an ill-formed term for each check -/

theorem test_wf_commandWord_mbz : WellFormed.commandWord 0x00000102 = false := by decide
theorem test_wf_commandWord_opcode : WellFormed.commandWord 0x0000000A = false := by decide
theorem test_wf_commandWord_ok : WellFormed.commandWord 0x00000009 = true := by decide
theorem test_wf_quad : WellFormed.quad (2 ^ 128) = false := by decide
theorem test_wf_word : WellFormed.word (2 ^ 32) = false := by decide
theorem test_wf_byte : WellFormed.byte 256 = false := by decide
theorem test_wf_mode : WellFormed.mode 4 = false := by decide
theorem test_wf_takesOperand : WellFormed.takesOperand .nop = false := by decide
theorem test_wf_line : (HostLine.op .clrerr 0).wellFormed = false ∧ (HostLine.ldop (2 ^ 128)).wellFormed = false ∧
    (HostLine.orbyte 0 256).wellFormed = false ∧ (HostLine.mode 4).wellFormed = false ∧
    (HostLine.writeAt 0 (2 ^ 32)).wellFormed = false := by decide
theorem test_memory_wf_refuses : ¬ (Memory.mk [(1, 1), (0, 1)] 2 0).wf ∧ ¬ (Memory.mk [(0, 0)] 2 0).wf := by decide
theorem test_inv_refuses : ¬ broken.Inv := by decide

/-! ### Decoding: the words of 30_encoding.md R61, R64, bit by bit -/

theorem test_decode_nop : decode 0b00000000000000000000000000000000 = .ok .nop := by decide
theorem test_decode_init : decode 0b00000000000000000000000000000001 = .ok .init := by decide
theorem test_decode_setb : decode 0b00000000000000000000000000000010 = .ok .setb := by decide
theorem test_decode_getb : decode 0b00000000000000000000000000000011 = .ok .getb := by decide
theorem test_decode_reduce : decode 0b00000000000000000000000000000100 = .ok .reduce := by decide
theorem test_decode_seth : decode 0b00000000000000000000000000000101 = .ok .seth := by decide
theorem test_decode_geth : decode 0b00000000000000000000000000000110 = .ok .geth := by decide
theorem test_decode_rdbyte : decode 0b00000000000000000000000000000111 = .ok .rdbyte := by decide
theorem test_decode_orbyte : decode 0b00000000000000000000000000001000 = .ok .orbyte := by decide
theorem test_decode_clrerr : decode 0b00000000000000000000000000001001 = .ok .clrerr := by decide
theorem test_decode_reserved : decode 0b00000000000000000000000000001010 = .error .reservedOpcode := by decide
theorem test_decode_mbz : decode 0b10000000000000000000000000000001 = .error .mbzNotZero := by decide
theorem test_decodeBytes : decodeBytes [0x05, 0x00, 0x00, 0x00] = .ok .seth ∧
    decodeBytes [0x00, 0x00, 0x00, 0x05] = .error .mbzNotZero ∧ decodeBytes [0x05] = .error .notOneWord := by decide
theorem test_decodeTableWord : decodeTableWord 32 0x8 = some .orbyte ∧ decodeTableWord 32 0xA = none := by decide

/-! ### Vectors of 95_test_vectors.md section 2 -/

theorem test_init_V_INIT_9 : (next? (exec .init (withOperand { s103 with result := true } 16))).map
    (fun t => (statusWord t, t.size.toNat, t.bytes.toNat, t.idx.toNat, t.array.read 0)) =
      some (0x00000001, 16, 2, 0, 0x00) := by decide
theorem test_init_V_INIT_5_6 : (next? (exec .init (withOperand blank 16384))).map (fun t => t.bytes.toNat) = some 2048 ∧
    status? (exec .init (withOperand blank 16385)) = some 0x00000114 := by decide
theorem test_setb_V_SETB_3 : bytes? (exec .setb (withOperand s10 8)) = some (0x00, 0x01) ∧
    idx? (exec .setb (withOperand s10 8)) = some 8 := by decide
theorem test_setb_V_SETB_5 : status? (exec .setb s10) = some 0x00000225 ∧ bytes? (exec .setb s10) = some (0, 0) := by
  decide
theorem test_getb_V_GETB_1_2 : status? (exec .getb (withOperand s103 3)) = some 0x00000003 ∧
    status? (exec .getb (withOperand s103 4)) = some 0x00000001 := by decide
theorem test_getb_V_ERR_2 : status? (exec .getb (withOperand blank (2 ^ 127))) = some 0x00000344 := by decide
theorem test_reduce_V_RED_2 : idx? (exec .reduce (withOperand { s10 with hmode := .s32 } 0xFFFFFFFF)) = some 9 := by
  decide
theorem test_reduce_V_RED_5 : status? (exec .reduce (withOperand blank 5)) = some 0x00000444 := by decide
theorem test_seth_V_SETH_2 : bytes? (exec .seth (withOperand { s10 with hmode := .s32 } 0xFFFFFFFF)) = some (0x00, 0x02) := by
  decide
theorem test_seth_V_SETH_4 : bytes? (exec .seth (withOperand { s10 with hmode := .u128 } (2 ^ 64))) = some (0x40, 0x00) := by
  decide
theorem test_geth_V_GETH_2_3 :
    status? (exec .geth (withOperand { s10 with array := ⟨[(0, 0x20)], 2, 0⟩ } 15)) = some 0x00000003 ∧
    status? (exec .geth (withOperand { s10 with array := ⟨[(0, 0x20)], 2, 0⟩ } 6)) = some 0x00000001 := by decide
theorem test_rdbyte_V_BYTE_1 :
    (next? (exec .rdbyte (withOperand { s10 with array := ⟨[(1, 0x02)], 2, 0⟩ } 1))).map State.data = some 0x02 := by decide
theorem test_rdbyte_V_BYTE_2 : status? (exec .rdbyte (withOperand s10 2)) = some 0x00000725 := by decide
theorem test_orbyte_V_BYTE_9 :
    bytes? (exec .orbyte (withOperand { s10 with data := 0x82, array := ⟨[(1, 0x01)], 2, 0⟩ } 1)) = some (0x00, 0x83) := by
  decide
theorem test_orbyte_V_BYTE_3 : status? (exec .orbyte (withOperand { s10 with data := 0x01 } 2)) = some 0x00000825 := by
  decide
theorem test_nop_V_CTL_1 : status? (exec .nop blank) = some 0x00000000 := by decide
theorem test_clrerr_V_CTL_3 :
    status? (exec .clrerr { s10 with err := true, errcode := .indexOutOfRange, errop := 0x02 }) = some 0x00000001 := by decide
theorem test_illegal_V_CTL_5_10 : status? (execWord 0x000000FF s10) = some 0x0000FF35 ∧
    status? (execWord 0x00000100 s10) = some 0x00000035 := by decide
theorem test_illegal_V_CTL_11 :
    status? (execWord 0x00000109 { s10 with err := true, errcode := .indexOutOfRange, errop := 0x02 }) =
      some 0x00000225 := by decide
theorem test_illegal_V_ERR_1 : status? (execWord 0x00000102 blank) = some 0x00000234 := by decide
theorem test_red_signed : red 0x80000000 .s32 10 = 2 ∧ red 0xDEADBEEF .s32 9586 = 7197 ∧ red 0xFFFFFFF6 .s32 10 = 0 ∧
    red 0xFFFFFFFFFFFFFFFFFFFFFFFFFFFFFFFF .s128 9586 = 9585 ∧ red 0x80000000000000000000000000000000 .s128 10 = 2 := by
  decide
theorem test_red_unsigned : red 0xDEADBEEF .u32 9586 = 5537 ∧ red 0x100000005 .u32 10 = 5 ∧ red 0x100000005 .u128 10 = 1 ∧
    red 0xFFFFFFFFFFFFFFFFFFFFFFFFFFFFFFFF .u128 9586 = 1627 ∧ red 0x10000000000000000 .u128 9586 = 4418 := by decide

/-- V-BUS-1 to V-BUS-5: bus errors, and no state change. -/
theorem test_bus_errors : [HostEvent.write (.bits 32) 0x02 0x12, .write (.bits 8) 0x0C 0x12, .read (.bits 16) 0x04,
    .read (.bits 32) 0x60, .write (.bits 32) 0xFC 0x1].map (fun e => next? (perform e blank)) =
      List.replicate 5 (some { blank with seen := [.busError] }) := by decide
/-- V-BUS-7, V-BUS-6. -/
theorem test_bus_ctrl : (next? (performAll [.write (.bits 32) 0x00 0xFFFFFFFF, .read (.bits 32) 0x00,
    .write (.bits 32) 0x04 0xFFFFFFFF, .read (.bits 32) 0x04] blank)).map State.seen =
      some [.done, .data 0x00000003, .done, .data 0x00000000] := by decide
/-- V-BUS-10. -/
theorem test_bus_operand :
    (next? (performAll (transcript [.ldop 0x0123456789ABCDEF0011223344556677, .rd128 .operand]) blank)).map
      (fun t => t.seen.drop 4) =
      some [.data 0x44556677, .data 0x00112233, .data 0x89ABCDEF, .data 0x01234567] := by decide
/-- The same reads assembled as 30_encoding.md R71 says; and RESULT? of S10 after a GETB that found 1. -/
theorem test_read_values : rd128Value [.data 0x44556677, .data 0x00112233, .data 0x89ABCDEF, .data 0x01234567] =
      some 0x0123456789ABCDEF0011223344556677 ∧
    resultValue [.data 0x00000003] = some true ∧ resultValue [.data 0x00000005] = some false ∧
    rd128Value [.data 0x44556677] = none := by decide
/-- V-BYTE-10. -/
theorem test_bus_data : (next? (performAll (transcript [.writeAt 0x0C 0x12345678, .rd .data]) blank)).map
    (fun t => t.seen.drop 1) = some [.data 0x00000078] := by decide
/-- 30_encoding.md R68: `-1` in S32 is 0xFFFFFFFF; `-10` is 0xFFFFFFF6 (95_test_vectors.md, P2). -/
theorem test_hash_bits : hashBits .s32 (-1) = 0xFFFFFFFF ∧ hashBits .s32 (-10) = 0xFFFFFFF6 := by decide

/-- 70_reset_and_hazards.md R114: after boot STATUS shows CFG = 1 and ERR = 0, and the mode is the one written. -/
theorem test_boot : (next? (performAll (transcript (bootLines 1 10)) blank)).map
    (fun t => (t.seen.take 4, t.seen.getLast?, t.hmode)) =
      some ([.data 0x00004000, .data 0, .data 0, .data 0], some (.data 0x00000001), HMode.s32) := by decide

/-- L1-4, the file of SIZE = 10, hashcount = 3 and `A = [0x28, 0x00]`. -/
def file34 : List Byte :=
  [0x0A, 0, 0, 0, 0, 0, 0, 0, 0, 0, 0, 0, 0, 0, 0, 0] ++ [0x03, 0, 0, 0, 0, 0, 0, 0, 0, 0, 0, 0, 0, 0, 0, 0] ++ [0x28, 0x00]

theorem test_save_L1_4 :
    (next? (performAll (transcript (saveLines 2)) { s10 with array := ⟨[(0, 0x28)], 2, 0⟩ })).map
      (fun t => fileOf 3 t.seen) = some file34 := by decide
theorem test_load_L1_4 : (match load file34 blank with
    | .loaded k t => k == 3 && t.size.toNat == 10 && statusWord t == 0x00000001 && t.array.read 0 == 0x28
    | _ => false) = true := by decide
theorem test_load_corrupt : load (file34.take 33) blank = .corruptData ∧ load (file34.take 31) blank = .corruptData ∧
    load (le16 0 ++ le16 3) blank = .corruptData ∧ load (le16 10 ++ le16 0 ++ [0x28, 0x00]) blank = .corruptData := by decide
/-- 95_test_vectors.md P2, the lookup of Y after bits 0, 2, 7 are set: seed 1 misses and seed 2 is not issued. -/
theorem test_lookup_P2 : (match lookup [2, 5, 9] { s10 with hmode := .s32, array := ⟨[(0, 0x85)], 2, 0⟩ } with
    | .absent t => t.idx.toNat == 5 && t.seen.length == 12
    | _ => false) = true := by decide

/-! ### Witnesses: states and operands that meet the hypotheses of each statement together -/

theorem test_witness_reset : (withEvents s10 [.reset]).host = .reset :: [] := rfl
theorem test_witness_inv_s10 : s10.Inv := by decide
theorem test_witness_inv_blank : blank.Inv := by decide
theorem test_witness_inv_s103 : s103.Inv := by decide
theorem test_witness_inv_step : (withEvents s103 [.write (.bits 32) 0x08 0x2]).Inv ∧
    ∃ t, step (withEvents s103 [.write (.bits 32) 0x08 0x2]) = .next t := ⟨by decide, _, rfl⟩
theorem test_witness_sizes_step : (withEvents blank [.write (.bits 32) 0x08 0x1]).sizesHold ∧
    ∃ t, step (withEvents blank [.write (.bits 32) 0x08 0x1]) = .next t := ⟨by decide, _, rfl⟩
/-- StopsOnlyWhereNoByteExists: SETB and GETB, SETH and GETH, RDBYTE and ORBYTE. -/
theorem test_witness_stops :
    (broken.cfg = true ∧ broken.operand.toNat < broken.size.toNat ∧ broken.nbytesMax ≤ broken.operand.toNat / 8) ∧
    (broken.cfg = true ∧ broken.nbytesMax ≤ hashIndex broken / 8) ∧
    ((withOperand broken 1).operand.toNat < broken.bytes.toNat ∧ broken.nbytesMax ≤ (withOperand broken 1).operand.toNat) := by
  decide
/-- CfgSetByInitClearedByReset: reset clears, INIT of 1 and of NBITS_MAX sets, INIT of 0 and of NBITS_MAX + 1 does not. -/
theorem test_witness_cfg_cleared : ∃ t, step (withEvents s10 [.reset]) = .next t ∧ s10.cfg = true ∧ t.cfg = false :=
  ⟨_, rfl, rfl, rfl⟩
theorem test_witness_cfg_set : (next? (step (withEvents (withOperand blank 1) [.write (.bits 32) 0x08 0x1]))).map State.cfg =
      some true ∧
    (next? (exec .init (withOperand blank 0x4000))).map State.cfg = some true ∧ blank.cfg = false ∧
    (next? (exec .init (withOperand blank 0))).map State.cfg = some false ∧
    (next? (exec .init (withOperand blank 0x4001))).map State.cfg = some false := by decide
theorem test_witness_decode_ok : decode 0x00000009 = .ok .clrerr ∧ decode 0x00000000 = .ok .nop := by decide
theorem test_witness_decode_none : ∀ i, decode 0x0000000A ≠ .ok i := by
  intro i
  cases i <;> decide
theorem test_witness_step_runs : (withEvents s10 [.write (.bits 32) 0x08 0x9]).host = .write (.bits 32) 0x08 0x9 :: [] ∧
    decode 0x9 = .ok .clrerr := ⟨rfl, by decide⟩
theorem test_witness_illegal : ((0x00000100 : Word).toNat / 256 ≠ 0 ∨ 0x0A ≤ (0x00000100 : Word).toNat % 256) ∧
    ((0x0000000A : Word).toNat / 256 ≠ 0 ∨ 0x0A ≤ (0x0000000A : Word).toNat % 256) ∧
    (withEvents s10 [.write (.bits 32) 0x08 0xA]).host = .write (.bits 32) 0x08 0xA :: [] := by decide
theorem test_witness_failed : errorOfWord 0x2 blank = some .notConfigured ∧
    errorOfWord 0x2 (withOperand s10 10) = some .indexOutOfRange ∧
    errorOfWord 0x1 (withOperand s10 0) = some .invalidParameters ∧ errorOfWord 0xFF s10 = some .illegalCommand := by decide
theorem test_witness_conditions : s10.err = false ∧ (∃ t, execWord 0x3 (withOperand s10 9) = .next t) ∧
    (∃ t, execWord 0x7 (withOperand s10 2) = .next t) ∧ errorOf .geth s10 = none ∧
    errorOf .rdbyte (withOperand s10 2) = some .indexOutOfRange := ⟨rfl, ⟨_, rfl⟩, ⟨_, rfl⟩, by decide, by decide⟩
theorem test_witness_record : s10.sameButRecord { s10 with err := true, errcode := .illegalCommand, errop := 0xFF } ∧
    ∃ t, exec .setb (withOperand s10 9) = .next t := ⟨rfl, _, rfl⟩
theorem test_witness_init_bounds : (1 ≤ (withOperand blank 1).operand.toNat ∧
      (withOperand blank 1).operand.toNat ≤ blank.cap.toNat) ∧
    (1 ≤ (withOperand s10 0x4000).operand.toNat ∧ (withOperand s10 0x4000).operand.toNat ≤ s10.cap.toNat) ∧
    (withOperand blank 0).operand.toNat = 0 ∧ blank.cap.toNat < (withOperand blank 0x4001).operand.toNat := by decide
/-- SETB, GETB: index SIZE - 1 and SIZE; and the last bit of a full array. -/
theorem test_witness_bit_index : ((withOperand s10 9).Inv ∧ (withOperand s10 9).operand.toNat < s10.size.toNat) ∧
    s10.size.toNat ≤ (withOperand s10 10).operand.toNat := by decide
theorem test_witness_bit_index_full :
    (State.Inv { withOperand s10 16383 with size := 0x4000, bytes := 0x800, array := ⟨[], 0x800, 0⟩ }) ∧
    (withOperand s10 16383).operand.toNat < (0x4000 : Quad).toNat := by decide
/-- REDUCE, SETH, GETH: SIZE = 1 is the smallest. -/
theorem test_witness_hash_size : (let s : State := { s10 with size := 1, bytes := 1, hmode := .s128 }
    s.Inv ∧ s.cfg = true ∧ 1 ≤ s.size.toNat) := by decide
/-- RDBYTE, ORBYTE: index BYTES - 1 and BYTES. -/
theorem test_witness_byte_index : ((withOperand s10 1).Inv ∧ (withOperand s10 1).operand.toNat < s10.bytes.toNat) ∧
    s10.bytes.toNat ≤ (withOperand s10 2).operand.toNat := by decide
theorem test_witness_frame : ∃ t, exec .orbyte (withOperand { s10 with data := 0xFF } 1) = .next t ∧
    Instr.orbyte ≠ .init ∧ s10.Inv := ⟨_, rfl, by decide, by decide⟩
theorem test_witness_idempotent : s103.array.wf ∧ ∃ t, exec .setb (withOperand s103 5) = .next t := ⟨by decide, _, rfl⟩
theorem test_witness_only_set : (withEvents s103 [.write (.bits 32) 0x08 0x2]).endsLifetime = false ∧
    (withEvents (withOperand s103 0) [.write (.bits 32) 0x08 0x1]).endsLifetime = false ∧
    (withEvents s103 [.write (.bits 32) 0x08 0x1]).endsLifetime = true ∧ s103.bit 3 = true := by decide
theorem test_witness_not_setting : ∀ w rest, (withEvents s103 [.read (.bits 32) 0x04]).host =
    .write (.bits 32) 0x08 w :: rest → w ≠ 0x2 ∧ w ≠ 0x5 ∧ w ≠ 0x8 := by
  intro w rest h
  simp [withEvents] at h
theorem test_witness_reduction : (0xFFFFFFFF : Quad).getLsbD 31 = true ∧ (0x7FFFFFFF : Quad).getLsbD 31 = false ∧
    (0xFFFFFFFF : Quad).toNat < 2 ^ 32 ∧
    (0x100000005 : Quad).extractLsb' 0 32 = (0x5 : Quad).extractLsb' 0 32 := by decide
theorem test_witness_in_range : ∃ t, exec .seth (withOperand s10 0xFFFFFFFF) = .next t ∧
    Instr.seth ∈ [Instr.reduce, .seth, .geth] := ⟨_, rfl, by decide⟩
theorem test_witness_hash_range : hashInRange .u32 0 ∧ hashInRange .u32 (2 ^ 32 - 1) ∧ hashInRange .s32 (-(2 ^ 31)) ∧
    hashInRange .s32 (2 ^ 31 - 1) ∧ hashInRange .u128 (2 ^ 128 - 1) ∧ hashInRange .s128 (-(2 ^ 127)) ∧
    hashInRange .s128 (2 ^ 127 - 1) := by decide
theorem test_witness_bit_layout : ({ s10 with array := ⟨[(0, 0x28)], 2, 0⟩ } : State).array.read 0 = 0x28 := by decide
theorem test_witness_read : (withEvents s10 [.read (.bits 32) (Reg.wide .cap 3).offset]).host =
    .read (.bits 32) (Reg.wide .cap 3).offset :: [] := rfl
/-- BusErrorChangesNothing: each of its three cases at its boundary. -/
theorem test_witness_bus_error : (Width.bits 64 ≠ .bits 32) ∧ ((0x5D : Offset).toNat % 4 ≠ 0) ∧ 0x60 ≤ (0x60 : Offset).toNat ∧
    (withEvents s10 [.read (.bits 32) 0x60]).host = .read (.bits 32) 0x60 :: [] := by decide
/-- ReadOnlyWritesIgnored: STATUS, SIZE0 and CAP3. -/
theorem test_witness_read_only : [(0x04 : Offset), 0x20, 0x5C].all
    (fun off => off.toNat % 4 = 0 ∧ (off = 0x04 ∨ (0x20 ≤ off.toNat ∧ off.toNat ≤ 0x5C))) = true ∧
    (withEvents s10 [.write (.bits 32) 0x5C 0x1]).host = .write (.bits 32) 0x5C 0x1 :: [] := by decide
theorem test_witness_register_writes : (withEvents s10 [.write (.bits 32) 0x00 0x7]).host = .write (.bits 32) 0x00 0x7 :: [] ∧
    (withEvents s10 [.write (.bits 32) 0x0C 0x7]).host = .write (.bits 32) 0x0C 0x7 :: [] ∧
    (withEvents s10 [.write (.bits 32) 0x1C 0x7]).host = .write (.bits 32) (BitVec.ofNat 8 (0x10 + 4 * 3)) 0x7 :: [] := by
  decide
theorem test_witness_base : Config.base < Config.base + 0xFF ∧ Config.base + 0xFF < Config.base + 0x100 := by
  constructor <;> omega
theorem test_witness_looks_like : (withEvents s10 [.read (.bits 32) 0x04]).Inv ∧
    (withEvents s10 [.read (.bits 32) 0x04]).looksLike
      { withEvents s10 [.read (.bits 32) 0x04] with array := ⟨[(5, 0x77)], 2, 9⟩ } ∧
    ∃ u, runSteps 1 (withEvents s10 [.read (.bits 32) 0x04]) = .next u := by
  refine ⟨by decide, ⟨rfl, fun _ j hj => ?_⟩, _, rfl⟩
  have hj : j < 2 := hj
  match j, hj with
  | 0, _ => decide
  | 1, _ => decide
/-- NoFalseNegatives: SETB of SIZE - 1, and SETH, with an access to come in the same lifetime. -/
theorem test_witness_lifetime : ∃ t u, (withEvents (withOperand s10 9) [.read (.bits 32) 0x04]).Inv ∧
    exec .setb (withEvents (withOperand s10 9) [.read (.bits 32) 0x04]) = .next t ∧ t.withinLifetime 1 ∧
    runSteps 1 t = .next u ∧ (∃ v, exec .seth s10 = .next v) := by
  refine ⟨_, _, by decide, rfl, ⟨by decide, fun _ _ => trivial⟩, rfl, _, rfl⟩
theorem test_witness_save_load : s10.Inv ∧ 1 ≤ 9 ∧ 9 ≤ s10.cap.toNat ∧ ([0x55, 0x01] : List Byte).length = (9 + 7) / 8 := by
  decide
theorem test_witness_lookup : s10.Inv ∧ s10.cfg = true ∧ s10.err = false ∧
    ∃ t, performAll (transcript (addLines [12])) s10 = .next t := ⟨by decide, rfl, rfl, _, rfl⟩
theorem test_witness_round_trip : s103.Inv ∧ s103.cfg = true ∧ blank.Inv ∧ blank.err = false ∧
    s103.size.toNat ≤ blank.cap.toNat ∧ 1 ≤ 3 ∧ 3 < 2 ^ 128 :=
  ⟨by decide, rfl, by decide, rfl, by decide, by decide, by decide⟩

/-- ErrorRecordIsSticky: a first failure, and the two ways to clear. -/
theorem test_witness_sticky : errorOfWord 0x2 (withEvents s10 [.write (.bits 32) 0x08 0x2]) = some .indexOutOfRange ∧
    (next? (step (withEvents s10 [.write (.bits 32) 0x08 0x2]))).map State.err = some true ∧
    (next? (step (withEvents { s10 with err := true, errcode := .indexOutOfRange, errop := 0x02 }
      [.write (.bits 32) 0x08 0x9]))).map State.err = some false ∧
    (next? (step (withEvents { s10 with err := true, errcode := .indexOutOfRange, errop := 0x02 } [.reset]))).map
      State.err = some false := by decide
theorem test_witness_mode_writes : (0x0 : Word).toNat % 4 = 0 ∧ (0xFFFFFFFD : Word).toNat % 4 = 1 ∧
    (0x6 : Word).toNat % 4 = 2 ∧ (0xFFFFFFFF : Word).toNat % 4 = 3 := by decide
theorem test_witness_operand_lines : Instr.rdbyte ∈ [Instr.init, .setb, .getb, .reduce, .seth, .geth, .rdbyte] ∧
    errorOf .orbyte (withOperand s10 1) = none ∧ Instr.orbyte ≠ .clrerr := by decide
/-- LoadChecksTheFile: a sound file of 16385 bits (95_test_vectors.md L1-4) is above a capacity of 16384; here 10 above 9. -/
theorem test_witness_load : fileOk file34 = true ∧ ({ blank with cap := 9 } : State).Inv ∧ blank.err = false ∧
    ({ blank with cap := 9 } : State).cap.toNat < ofLe (file34.take 16) :=
  ⟨by decide, by decide, rfl, by decide⟩
/-- The number ranges of the reduction, the window and LDOP at their ends. -/
theorem test_witness_numbers : (1 ≤ 1 ∧ 32 ≤ 32 ∧ 128 ≤ 128) ∧ (3 < 4 ∧ 15 < 16) ∧ 2 ^ 128 - 1 < 2 ^ 128 ∧ 2 ^ 32 - 1 < 2 ^ 32 := by
  decide

end Sys2Proof.Tests
end

section
/-! The bus address decoder: which addresses reach the block, and at which offset of the window
(00_scope.md R9, 20_memory.md R46). -/

namespace Sys2Proof.Laws

open Sys2Proof.Machine

theorem base_aligned : Config.base % 256 = 0 :=
  Nat.mul_mod_right 256 Config.basePage

theorem offsetOf_base_add (off : Offset) : offsetOf (Config.base + off.toNat) = some off := by
  have hin : Config.base ≤ Config.base + off.toNat ∧ Config.base + off.toNat < Config.base + 256 :=
    ⟨Nat.le_add_right _ _, Nat.add_lt_add_left off.isLt _⟩
  have hoff : BitVec.ofNat 8 (Config.base + off.toNat - Config.base) = off := by
    rw [Nat.add_sub_cancel_left, BitVec.ofNat_toNat, BitVec.setWidth_eq]
  rw [offsetOf, if_pos hin, hoff]

theorem offsetOf_eq_none_iff (addr : Nat) :
    offsetOf addr = none ↔ addr < Config.base ∨ Config.base + 0xFF < addr := by
  rw [offsetOf, ite_eq_right_iff]
  constructor
  · intro hin
    by_contra hout
    have hwindow : Config.base ≤ addr ∧ addr < Config.base + 256 := by omega
    exact Option.some_ne_none _ (hin hwindow)
  · intro hout hin
    omega

/-- Settles O47: BASE is 256 times a number, every offset's address decodes to that offset, and the decoder answers
none exactly outside the window. -/
theorem windowIsAtBase : Obligations.WindowIsAtBase :=
  ⟨base_aligned, offsetOf_base_add, fun addr hout => (offsetOf_eq_none_iff addr).mpr hout⟩

end Sys2Proof.Laws
end

section
/-! The decoder inverted, and what a command does once its error condition is known (30_encoding.md R65;
60_exceptions.md R96 to R99). -/

namespace Sys2Proof.Laws

open Sys2Proof.Machine

/-! ### The decoder -/

theorem opcField_eq_ofNat (w : Word) : opcField w = BitVec.ofNat 8 w.toNat := rfl

theorem opcodeOf_of_commandOf {b : Byte} {i : Instr} (h : commandOf b = .ok i) : opcodeOf i = b := by
  unfold commandOf at h
  split at h <;> cases h <;> exact BitVec.eq_of_toNat_eq (Eq.symm ‹_›)

theorem setWidth_opcField {w : Word} (h : mbzField w = 0) : (opcField w).setWidth 32 = w := by
  have hmbz : w.toNat / 256 % 2 ^ 24 = 0 := by
    simpa [mbzField, Nat.shiftRight_eq_div_pow] using congrArg BitVec.toNat h
  have hw := w.isLt
  apply BitVec.eq_of_toNat_eq
  rw [opcField_eq_ofNat, BitVec.toNat_setWidth, BitVec.toNat_ofNat]
  omega

theorem mbzField_commandOf_of_decode {w : Word} {i : Instr} (h : decode w = .ok i) :
    mbzField w = 0 ∧ commandOf (opcField w) = .ok i := by
  unfold decode at h
  split at h
  case isTrue hmbz => exact ⟨hmbz, h⟩
  case isFalse => cases h

theorem opcField_of_decode {w : Word} {i : Instr} (h : decode w = .ok i) : opcField w = opcodeOf i :=
  (opcodeOf_of_commandOf (mbzField_commandOf_of_decode h).2).symm

/-- The one word that decodes to a command is its encoding (30_encoding.md R64, R65). -/
theorem eq_encode_of_decode {w : Word} {i : Instr} (h : decode w = .ok i) : w = encode i := by
  rw [encode, ← opcField_of_decode h, setWidth_opcField (mbzField_commandOf_of_decode h).1]

theorem encoding_statement (i : Instr) : Encoding.Statement i := by
  cases i with
  | nop => exact Encoding.nop
  | init => exact Encoding.init
  | setb => exact Encoding.setb
  | getb => exact Encoding.getb
  | reduce => exact Encoding.reduce
  | seth => exact Encoding.seth
  | geth => exact Encoding.geth
  | rdbyte => exact Encoding.rdbyte
  | orbyte => exact Encoding.orbyte
  | clrerr => exact Encoding.clrerr

theorem decodeTableWord_of_decode {w : Word} {i : Instr} (h : decode w = .ok i) :
    decodeTableWord 32 w.toNat = some i := by
  rw [eq_encode_of_decode h]
  exact (encoding_statement i).2

/-! ### A command under its error condition -/

/-- An error condition is never the code that stands for no error (60_exceptions.md R95). -/
theorem errorOf_ne_noError {i : Instr} {s : State} {c : ErrCode} (h : errorOf i s = some c) : c ≠ .noError := by
  rintro rfl
  cases i with
  | nop | clrerr => cases h
  | init | reduce | seth | geth =>
    simp only [errorOf] at h
    split at h <;> cases h
  | setb | getb | rdbyte | orbyte =>
    simp only [errorOf] at h
    split at h
    · cases h
    · split at h <;> cases h

/-- A command with an error condition records it and does nothing else (60_exceptions.md R97, R98). -/
theorem exec_of_error {i : Instr} {s : State} {c : ErrCode} (h : errorOf i s = some c) :
    exec i s = .next (s.recordError (opcodeOf i) c) := by
  cases i with
  | nop | clrerr => cases h
  | init =>
    simp only [errorOf, Option.ite_none_right_eq_some, Option.some.injEq] at h
    obtain ⟨hn, rfl⟩ := h
    exact if_pos hn
  | reduce | seth | geth =>
    simp only [errorOf, Option.ite_none_right_eq_some, Option.some.injEq] at h
    obtain ⟨hc, rfl⟩ := h
    exact whenConfigured_of_not_cfg hc _ _
  | setb | getb | rdbyte | orbyte =>
    simp only [errorOf] at h
    split at h
    case isTrue hc =>
      cases h
      exact whenConfigured_of_not_cfg hc _ _
    case isFalse hc =>
      simp only [Option.ite_none_right_eq_some, Option.some.injEq] at h
      obtain ⟨hi, rfl⟩ := h
      exact (whenConfigured_of_cfg (by simpa using hc) _ _).trans (if_pos hi)

theorem errorOf_init_eq_none {s : State} (h1 : 1 ≤ s.operand.toNat) (hn : s.operand.toNat ≤ s.cap.toNat) :
    errorOf .init s = none := by
  simp only [errorOf, ite_eq_right_iff, reduceCtorEq, imp_false]
  omega

theorem errorOf_of_not_cfg {i : Instr} {s : State} (hc : s.cfg = false)
    (hi : i ∈ [Instr.setb, .getb, .reduce, .seth, .geth, .rdbyte, .orbyte]) : errorOf i s = some .notConfigured := by
  cases i with
  | nop | init | clrerr => simp at hi
  | setb | getb | reduce | seth | geth | rdbyte | orbyte => simp [errorOf, hc]

/-- A word with an error condition, whether or not it decodes, records it and does nothing else. -/
theorem execWord_of_error {w : Word} {s : State} {c : ErrCode} (h : errorOfWord w s = some c) :
    execWord w s = .next (s.recordError (opcField w) c) := by
  unfold errorOfWord at h
  cases hw : decode w with
  | ok i =>
    rw [hw] at h
    rw [execWord_ok hw, exec_of_error h, opcField_of_decode hw]
  | error d =>
    rw [hw] at h
    cases h
    exact execWord_error hw s

theorem errorOfWord_ok {w : Word} {i : Instr} (h : decode w = .ok i) (s : State) : errorOfWord w s = errorOf i s := by
  rw [errorOfWord, h]

theorem errorOfWord_error {w : Word} {d : DecodeError} (h : decode w = .error d) (s : State) :
    errorOfWord w s = some .illegalCommand := by
  rw [errorOfWord, h]

/-- The accesses the host makes change no error condition of a command. -/
@[simp] theorem errorOf_respond_withHost (i : Instr) (s : State) (es : List HostEvent) (r : Response) :
    errorOf i ((s.withHost es).respond r) = errorOf i s := rfl

end Sys2Proof.Laws
end

section
/-! What each command leaves as it is, and the step inverted once more for the block's own registers: a step is quiet,
runs a command, meets an illegal word, or is a reset (10_state.md R21 to R36; 20_memory.md R46, R52). -/

namespace Sys2Proof.Laws

open Sys2Proof.Machine

/-! ### The registers a command leaves -/

section
variable {s t : State} {i : Instr}

/-- No command writes CTRL, OPERAND or CAP, or issues an access or answers one (10_state.md R21, R29, R33). -/
theorem Effect.fixed (h : Effect s i t) :
    t.hmode = s.hmode ∧ t.operand = s.operand ∧ t.cap = s.cap ∧ t.host = s.host ∧ t.seen = s.seen := by
  cases h <;> simp

/-- Only INIT writes SIZE, BYTES and CFG (10_state.md R24, R30, R31). -/
theorem Effect.configuration (h : Effect s i t) (hi : i ≠ .init) :
    t.size = s.size ∧ t.bytes = s.bytes ∧ t.cfg = s.cfg := by
  cases h with
  | init => contradiction
  | _ => simp

/-- A command writes the error record only if it fails or is CLRERR (10_state.md R26; 60_exceptions.md R97). -/
theorem Effect.record (h : Effect s i t) (hi : i ≠ .clrerr) (he : errorOf i s = none) :
    t.err = s.err ∧ t.errcode = s.errcode ∧ t.errop = s.errop := by
  cases h with
  | clrerr => contradiction
  | failed hc => simp [he] at hc
  | _ => simp

theorem Effect.result_eq (h : Effect s i t) (hi : i ∉ [Instr.init, .getb, .geth]) : t.result = s.result := by
  cases h with
  | init | getb | geth => simp at hi
  | _ => simp

theorem Effect.data_eq (h : Effect s i t) (hi : i ≠ .rdbyte) : t.data = s.data := by
  cases h with
  | rdbyte => contradiction
  | _ => simp

theorem Effect.idx_eq (h : Effect s i t) (hi : i ∉ [Instr.init, .setb, .getb, .reduce, .seth, .geth]) :
    t.idx = s.idx := by
  cases h with
  | init | setb | getb | reduce | seth | geth => simp at hi
  | _ => simp

/-- Only SETB, SETH, ORBYTE and an INIT that succeeds write the array (10_state.md R37, R38). -/
theorem Effect.array_eq (h : Effect s i t) (hi : i ∉ [Instr.setb, .seth, .orbyte])
    (hn : i = .init → errorOf .init s ≠ none) : t.array = s.array := by
  cases h with
  | init h1 h2 => exact absurd (errorOf_init_eq_none h1 h2) (hn rfl)
  | setb | seth | orbyte => simp at hi
  | _ => simp

end

/-- Settles O28, register by register from the effects a command can have. -/
theorem commandsWriteOnlyTheirRegisters : Obligations.CommandsWriteOnlyTheirRegisters := by
  intro i s t h
  have he := exec_effect h
  obtain ⟨hmode, hoperand, hcap, hhost, hseen⟩ := he.fixed
  refine ⟨hmode, hoperand, hcap, hhost, hseen, he.configuration, he.record, he.result_eq, he.data_eq, he.idx_eq,
    fun hi a => ?_⟩
  have hinit : i ≠ .init := List.ne_of_not_mem_cons hi
  rw [he.array_eq (List.not_mem_of_not_mem_cons hi) fun h => absurd h hinit]

/-! ### The step, for the registers that commands write -/

/-- What a read, a bus error or a register write leaves: all that only commands and reset write. -/
def Quiet (s t : State) : Prop :=
  t = { s with hmode := t.hmode, data := t.data, operand := t.operand, host := t.host, seen := t.seen }

section
variable {s t : State}

theorem Quiet.cap_eq (h : Quiet s t) : t.cap = s.cap := by rw [h]
theorem Quiet.cfg_eq (h : Quiet s t) : t.cfg = s.cfg := by rw [h]
theorem Quiet.array_eq (h : Quiet s t) : t.array = s.array := by rw [h]
theorem Quiet.record (h : Quiet s t) : t.err = s.err ∧ t.errcode = s.errcode ∧ t.errop = s.errop := by
  rw [h]
  exact ⟨rfl, rfl, rfl⟩

end

/-- The state a command of the first event starts from: that event taken and its write answered. -/
abbrev taken (s : State) (rest : List HostEvent) : State := (s.withHost rest).respond .done

/-- Every way a step ends in a next state. -/
inductive StepCase (s : State) : State → Prop where
  | quiet {t} (ht : Quiet s t) : StepCase s t
  | command {w rest i t} (hh : s.host = commandAccess w :: rest) (hw : decode w = .ok i)
      (he : Effect (taken s rest) i t) : StepCase s t
  | illegal {w rest d} (hh : s.host = commandAccess w :: rest) (hw : decode w = .error d) :
      StepCase s ((taken s rest).recordError (opcField w) .illegalCommand)
  | reset {rest} (hh : s.host = .reset :: rest) : StepCase s (s.withHost rest).afterReset

theorem quiet_writeReg (s : State) (es : List HostEvent) (r : Reg) (w : Word) :
    Quiet s (writeReg r w (taken s es)) := by
  cases r with
  | wide x k => cases x <;> rfl
  | ctrl | status | cmd | data => rfl

theorem step_case {s t : State} (h : step s = .next t) : StepCase s t := by
  rcases step_effect h with ⟨-, rfl⟩ | ⟨e, rest, hh, he⟩
  · exact .quiet rfl
  · cases he with
    | readAnswered r => exact .quiet rfl
    | writeStored hr w => exact .quiet (quiet_writeReg s rest _ w)
    | writeRefused w ht => exact .quiet rfl
    | command hw he => exact .command hh hw (exec_effect he)
    | illegal hw => exact .illegal hh hw
    | reset => exact .reset hh

end Sys2Proof.Laws
end

section
/-! The invariant of the block: at reset, under each update, under each command and so under every step
(10_state.md R32, R39, R42, R43; 41_reduction.md R80; 60_exceptions.md R97). -/

namespace Sys2Proof.Laws

open Sys2Proof.Machine

/-! ### Reset -/

theorem nbitsMax_bounds : 1 ≤ Config.nbitsMax ∧ Config.nbitsMax < 2 ^ 128 := by
  unfold Config.nbitsMax
  omega

theorem reset_cap_toNat : State.reset.cap.toNat = Config.nbitsMax :=
  toNat_ofNat_quad nbitsMax_bounds.2

/-- A block at its reset values meets the invariant, whatever its capacity, its draw and its host. -/
theorem inv_reset_with {cap : Quad} (h : 1 ≤ cap.toNat) (draw : Nat) (es : List HostEvent) (rs : List Response) :
    ({ State.reset with cap := cap, array := ⟨[], 0, draw⟩, host := es, seen := rs } : State).Inv :=
  ⟨h, ⟨nofun, fun _ => ⟨rfl, rfl⟩⟩, ⟨nofun, fun _ => ⟨rfl, rfl⟩⟩, ⟨fun _ => ⟨rfl, rfl⟩, nofun⟩,
    empty_wf 0 draw, nofun, Nat.zero_le _, nofun⟩

theorem inv_reset : State.reset.Inv :=
  inv_reset_with (nbitsMax_bounds.1.trans_eq reset_cap_toNat.symm) 0 [] []

theorem inv_afterReset {s : State} (h : 1 ≤ s.cap.toNat) : s.afterReset.Inv :=
  inv_reset_with h (s.array.draw + 1) s.host s.seen

theorem sizesHold_afterReset (s : State) : s.afterReset.sizesHold := ⟨nofun, fun _ => ⟨rfl, rfl⟩⟩

/-! ### The error record -/

theorem inv_recordError {s : State} (h : s.Inv) (op : Byte) {c : ErrCode} (hc : c ≠ .noError) :
    (s.recordError op c).Inv := by
  cases he : s.err with
  | true =>
    rw [State.recordError_of_err s op c he]
    exact h
  | false =>
    rw [State.recordError_of_not_err s op c he]
    obtain ⟨hcap, hsizes, hindex, -, harray⟩ := h
    exact ⟨hcap, hsizes, hindex, ⟨nofun, fun _ => hc⟩, harray⟩

theorem sizesHold_recordError {s : State} (h : s.sizesHold) (op : Byte) (c : ErrCode) :
    (s.recordError op c).sizesHold := by
  simpa only [State.sizesHold, State.recordError_cfg, State.recordError_size, State.recordError_bytes,
    State.recordError_cap, State.recordError_nbytesMax] using h

theorem inv_clearError {s : State} (h : s.Inv) : s.clearError.Inv := by
  obtain ⟨hcap, hsizes, hindex, -, harray⟩ := h
  exact ⟨hcap, hsizes, hindex, ⟨fun _ => ⟨rfl, rfl⟩, nofun⟩, harray⟩

/-! ### The index and the array -/

theorem inv_setIdx {s : State} (h : s.Inv) (hc : s.cfg = true) {i : Nat} (hi : i < s.size.toNat) :
    (s.setIdx i).Inv := by
  obtain ⟨hcap, hsizes, -, hrecord, harray⟩ := h
  have hidx : (s.setIdx i).idx.toNat = i := toNat_ofNat_quad (hi.trans s.size.isLt)
  exact ⟨hcap, hsizes, ⟨fun _ => hidx.trans_lt hi, by simp [hc]⟩, hrecord, harray⟩

theorem inv_setResult {s : State} (h : s.Inv) (hc : s.cfg = true) (b : Bool) : (s.setResult b).Inv := by
  obtain ⟨hcap, hsizes, ⟨hidx, -⟩, hrecord, harray⟩ := h
  exact ⟨hcap, hsizes, ⟨hidx, by simp [hc]⟩, hrecord, harray⟩

theorem inv_orred {s : State} (h : s.Inv) (hc : s.cfg = true) {j : Nat} (hj : j < s.bytes.toNat) (v : Byte) :
    (orred s j v).Inv := by
  obtain ⟨hcap, hsizes, hindex, hrecord, hwf, hfilled, hmax, hcells⟩ := h
  refine ⟨hcap, hsizes, hindex, hrecord, write_wf hwf _ _, ?_, ?_, ?_⟩
  · simpa using hfilled
  · simpa using hmax
  · simpa using write_cells_lt hcells (hj.trans_le (hfilled hc)) _

/-! ### INIT -/

/-- The block after an INIT of `n` bits. -/
abbrev inited (s : State) (n : Nat) : State := (s.setArray (s.array.zeroFill (ceil8 n))).configure n

theorem inited_size_toNat (s : State) {n : Nat} (hn : n ≤ s.cap.toNat) : (inited s n).size.toNat = n :=
  toNat_ofNat_quad (hn.trans_lt s.cap.isLt)

theorem inited_bytes_toNat (s : State) {n : Nat} (hn : n ≤ s.cap.toNat) : (inited s n).bytes.toNat = ceil8 n :=
  toNat_ofNat_quad (ceil8_lt_two_pow (hn.trans_lt s.cap.isLt))

theorem sizesHold_inited (s : State) {n : Nat} (h1 : 1 ≤ n) (hn : n ≤ s.cap.toNat) : (inited s n).sizesHold := by
  refine ⟨fun _ => ?_, by simp⟩
  rw [inited_size_toNat s hn, inited_bytes_toNat s hn]
  exact ⟨h1, hn, rfl, ceil8_le hn⟩

theorem inv_inited {s : State} (h : s.Inv) {n : Nat} (h1 : 1 ≤ n) (hn : n ≤ s.cap.toNat) : (inited s n).Inv := by
  obtain ⟨hcap, -, -, hrecord, hwf, -, hmax, hcells⟩ := h
  refine ⟨hcap, sizesHold_inited s h1 hn, ⟨fun _ => ?_, by simp⟩, hrecord, zeroFill_wf hwf _, fun _ => ?_,
    max_le hmax (ceil8_le hn), zeroFill_cells_lt hcells _⟩
  · rw [inited_size_toNat s hn]
    exact h1
  · rw [inited_bytes_toNat s hn]
    exact Nat.le_max_right _ _

/-! ### Commands and steps -/

theorem hashIndex_lt_size {s : State} (h : s.Inv) (hc : s.cfg = true) : hashIndex s < s.size.toNat := by
  obtain ⟨-, ⟨hsizes, -⟩, -⟩ := h
  exact hashIndex_lt (hsizes hc).1

theorem Effect.inv {s t : State} {i : Instr} (he : Effect s i t) (h : s.Inv) : t.Inv := by
  cases he with
  | nop => exact h
  | failed hc => exact inv_recordError h _ (errorOf_ne_noError hc)
  | init h1 hn => exact inv_inited h h1 hn
  | setb hc hi => exact inv_setIdx (inv_orred h hc (index_byte h hc hi).1 _) hc hi
  | getb hc hi => exact inv_setIdx (inv_setResult h hc (s.bit _)) hc hi
  | reduce hc => exact inv_setIdx h hc (hashIndex_lt_size h hc)
  | seth hc =>
    have hi := hashIndex_lt_size h hc
    exact inv_setIdx (inv_orred h hc (index_byte h hc hi).1 _) hc hi
  | geth hc => exact inv_setIdx (inv_setResult h hc (s.bit _)) hc (hashIndex_lt_size h hc)
  | rdbyte => exact h
  | orbyte hc hi => exact inv_orred h hc hi _
  | clrerr => exact inv_clearError h

theorem step_inv {s t : State} (h : s.Inv) (hs : step s = .next t) : t.Inv := by
  cases step_case hs with
  | quiet ht =>
    rw [ht]
    exact h
  | command _ _ he => exact he.inv h
  | @illegal _ rest => exact inv_recordError (s := taken s rest) h _ (c := .illegalCommand) nofun
  | reset => exact inv_afterReset h.1

/-- Settles O4, from the invariant under each command, an illegal word, a quiet step and reset. -/
theorem invariantKeptByEveryStep : Obligations.InvariantKeptByEveryStep := fun _ _ => step_inv

/-- Settles O3, as the reset values with the reset capacity. -/
theorem invariantAtReset : Obligations.InvariantAtReset := inv_reset

/-- The sizes are INIT's to write, and a successful INIT writes sizes that hold. -/
theorem Effect.sizesHold {s t : State} {i : Instr} (he : Effect s i t) (h : s.sizesHold) : t.sizesHold := by
  cases he with
  | failed => exact sizesHold_recordError h _ _
  | init h1 hn => exact sizesHold_inited s h1 hn
  | _ => exact h

theorem step_sizesHold {s t : State} (h : s.sizesHold) (hs : step s = .next t) : t.sizesHold := by
  cases step_case hs with
  | quiet ht =>
    rw [ht]
    exact h
  | command _ _ he => exact he.sizesHold h
  | @illegal _ rest => exact sizesHold_recordError (s := taken s rest) h _ _
  | reset => exact sizesHold_afterReset _

/-- Settles O5: the sizes hold at reset as part of the invariant, and every step keeps them. -/
theorem sizesHeldAtEveryStep : Obligations.SizesHeldAtEveryStep :=
  ⟨inv_reset.2.1, fun _ _ h hs => step_sizesHold h hs⟩

end Sys2Proof.Laws
end

section
/-! Noninterference: what a byte no command reaches holds, is never observed (10_state.md R43; 20_memory.md R47;
70_reset_and_hazards.md R125). A state the host cannot tell from `s` is `s` with another array, which agrees with that of
`s` in every reachable byte, and the same access takes both to states related so. -/

namespace Sys2Proof.Laws

open Sys2Proof.Machine

/-- The array `m` holds what that of `s` holds in every byte that a command of `s` reaches. -/
def Agrees (s : State) (m : Memory) : Prop :=
  s.cfg = true → ∀ j, j < s.bytes.toNat → s.array.read j = m.read j

theorem looksLike_iff {s t : State} : s.looksLike t ↔ ∃ m, t = s.setArray m ∧ Agrees s m := by
  constructor
  · rintro ⟨ht, hm⟩
    exact ⟨t.array, ht.symm, hm⟩
  · rintro ⟨m, rfl, hm⟩
    exact ⟨rfl, hm⟩

theorem agrees_zeroFill (s : State) (m : Memory) {n : Nat} (hn : n ≤ s.cap.toNat) :
    Agrees (inited s n) (m.zeroFill (ceil8 n)) := by
  intro _ j hj
  rw [inited_bytes_toNat s hn] at hj
  simp [read_zeroFill, hj]

theorem agrees_orred {s : State} {m : Memory} (h : Agrees s m) (j : Nat) (v : Byte) (hj : s.array.read j = m.read j) :
    Agrees (orred s j v) (m.write j (m.read j ||| v)) := by
  intro hc a ha
  simp only [State.setArray_array, read_write, hj, h hc a ha]

/-! ### The same command on both arrays -/

theorem recordError_setArray (s : State) (m : Memory) (op : Byte) (c : ErrCode) :
    (s.setArray m).recordError op c = (s.recordError op c).setArray m := by
  cases he : s.err with
  | true =>
    rw [State.recordError_of_err s op c he, State.recordError_of_err (s.setArray m) op c he]
  | false =>
    rw [State.recordError_of_not_err s op c he, State.recordError_of_not_err (s.setArray m) op c he]
    rfl

theorem agrees_recordError {s : State} {m : Memory} (h : Agrees s m) (op : Byte) (c : ErrCode) :
    Agrees (s.recordError op c) m := by
  simpa [Agrees] using h

/-- A reachable bit is the same in both arrays. -/
theorem bit_setArray {s : State} {m : Memory} {i : Nat} (h : s.array.read (i / 8) = m.read (i / 8)) :
    (s.setArray m).bit i = s.bit i := by
  rw [State.bit_eq, State.bit_eq, State.setArray_array, h]

theorem setBitOp_setArray {s : State} {m : Memory} (h : Agrees s m) {i : Nat} (hj : i / 8 < s.nbytesMax)
    (hr : s.array.read (i / 8) = m.read (i / 8)) :
    ∃ n, setBitOp i (s.setArray m) = .next (((orred s (i / 8) (bitMask i)).setIdx i).setArray n) ∧
      Agrees ((orred s (i / 8) (bitMask i)).setIdx i) n :=
  ⟨_, setBitOp_of_lt (s := s.setArray m) hj, agrees_orred h _ _ hr⟩

theorem getBitOp_setArray {s : State} {m : Memory} {i : Nat} (hj : i / 8 < s.nbytesMax)
    (hr : s.array.read (i / 8) = m.read (i / 8)) :
    getBitOp i (s.setArray m) = .next (((s.setResult (s.bit i)).setIdx i).setArray m) := by
  rw [getBitOp_of_lt (s := s.setArray m) hj, bit_setArray hr]
  rfl

/-- A command reads and writes reachable bytes only, so it does the same on both arrays. -/
theorem exec_agrees {i : Instr} {s t : State} {m : Memory} (h : s.Inv) (hm : Agrees s m) (he : exec i s = .next t) :
    ∃ n, exec i (s.setArray m) = .next (t.setArray n) ∧ Agrees t n := by
  have hread : ∀ k, s.cfg = true → k < s.size.toNat → s.array.read (k / 8) = m.read (k / 8) :=
    fun k hc hk => hm hc _ (index_byte h hc hk).1
  cases hi : errorOf i s with
  | some c =>
    rw [exec_of_error hi, Host.Outcome.next.injEq] at he
    subst he
    exact ⟨m, by rw [exec_of_error (s := s.setArray m) hi, recordError_setArray], agrees_recordError hm _ _⟩
  | none =>
    rw [exec_of_noError (s := s.setArray m) hi]
    cases exec_effect he with
    | failed hc => simp [hi] at hc
    | nop => exact ⟨m, rfl, hm⟩
    | clrerr => exact ⟨m, rfl, hm⟩
    | reduce => exact ⟨m, rfl, hm⟩
    | init _ hn => exact ⟨_, rfl, agrees_zeroFill s m hn⟩
    | setb hc hk hj => exact setBitOp_setArray hm hj (hread _ hc hk)
    | seth hc hj => exact setBitOp_setArray hm hj (hread _ hc (hashIndex_lt_size (s := s) h hc))
    | getb hc hk hj => exact ⟨m, getBitOp_setArray hj (hread _ hc hk), hm⟩
    | geth hc hj => exact ⟨m, getBitOp_setArray hj (hread _ hc (hashIndex_lt_size (s := s) h hc)), hm⟩
    | rdbyte hc hk hj =>
      refine ⟨m, ?_, hm⟩
      rw [body, State.setArray_operand, memRead_of_lt (s := s.setArray m) hj, hm hc _ hk]
      rfl
    | orbyte hc hk hj =>
      exact ⟨_, orIntoByte_of_lt (s := s.setArray m) hj _ _, agrees_orred hm _ _ (hm hc _ hk)⟩

/-! ### The same access and the same run on both arrays -/

theorem readReg_setArray (r : Reg) (s : State) (m : Memory) : readReg r (s.setArray m) = readReg r s := by
  cases r with
  | wide x k => cases x <;> rfl
  | ctrl | status | cmd | data => rfl

theorem writeReg_setArray (r : Reg) (w : Word) (s : State) (m : Memory) :
    writeReg r w (s.setArray m) = (writeReg r w s).setArray m := by
  cases r with
  | wide x k => cases x <;> rfl
  | ctrl | status | cmd | data => rfl

theorem agrees_writeReg {s : State} {m : Memory} (h : Agrees s m) (r : Reg) (w : Word) : Agrees (writeReg r w s) m := by
  cases r with
  | wide x k => cases x <;> exact h
  | ctrl | status | cmd | data => exact h

theorem execWord_agrees {w : Word} {s t : State} {m : Memory} (h : s.Inv) (hm : Agrees s m)
    (he : execWord w s = .next t) : ∃ n, execWord w (s.setArray m) = .next (t.setArray n) ∧ Agrees t n := by
  cases hw : decode w with
  | ok i =>
    rw [execWord_ok hw] at he ⊢
    exact exec_agrees h hm he
  | error d =>
    rw [execWord_error hw, Host.Outcome.next.injEq] at he
    subst he
    exact ⟨m, by rw [execWord_error hw, recordError_setArray], agrees_recordError hm _ _⟩

theorem perform_agrees {e : HostEvent} {s t : State} {m : Memory} (h : s.Inv) (hm : Agrees s m)
    (he : perform e s = .next t) : ∃ n, perform e (s.setArray m) = .next (t.setArray n) ∧ Agrees t n := by
  cases e with
  | read width off =>
    rw [perform_read, Host.Outcome.next.injEq] at he
    subst he
    refine ⟨m, ?_, hm⟩
    rw [perform_read]
    cases target width off with
    | none => rfl
    | some r => exact congrArg (fun v => Host.Outcome.next ((s.setArray m).respond (.data v))) (readReg_setArray r s m)
  | write width off w =>
    cases ht : target width off with
    | none =>
      rw [perform_write_none ht, Host.Outcome.next.injEq] at he
      subst he
      exact ⟨m, perform_write_none ht _ w, hm⟩
    | some r =>
      obtain ⟨rfl, rfl⟩ := target_some ht
      by_cases hr : r = .cmd
      · subst hr
        exact execWord_agrees (s := s.respond .done) h hm he
      · rw [perform_write_reg hr, Host.Outcome.next.injEq] at he
        subst he
        refine ⟨m, ?_, agrees_writeReg (s := s.respond .done) hm r w⟩
        rw [perform_write_reg hr, ← writeReg_setArray]
        rfl
  | reset =>
    rw [perform, Host.Outcome.next.injEq] at he
    subst he
    exact ⟨_, rfl, nofun⟩

theorem step_agrees {s t : State} {m : Memory} (h : s.Inv) (hm : Agrees s m) (hs : step s = .next t) :
    ∃ n, step (s.setArray m) = .next (t.setArray n) ∧ Agrees t n := by
  cases hh : s.host with
  | nil =>
    rw [step_nil hh, Host.Outcome.next.injEq] at hs
    subst hs
    exact ⟨m, step_nil hh, hm⟩
  | cons e rest =>
    rw [step_cons hh] at hs
    rw [step_cons (s := s.setArray m) hh]
    exact perform_agrees (s := s.withHost rest) h hm hs

theorem runSteps_agrees {k : Nat} {s u : State} {m : Memory} (h : s.Inv) (hm : Agrees s m)
    (hr : runSteps k s = .next u) : ∃ n, runSteps k (s.setArray m) = .next (u.setArray n) ∧ Agrees u n := by
  induction k generalizing s m with
  | zero =>
    rw [runSteps, Host.Outcome.next.injEq] at hr
    subst hr
    exact ⟨m, rfl, hm⟩
  | succ k ih =>
    obtain ⟨t, hs, hr⟩ := runSteps_succ_next hr
    obtain ⟨n, hs', hn⟩ := step_agrees h hm hs
    rw [runSteps_succ hs']
    exact ih (step_inv h hs) hn hr

/-- Settles O49, by induction on the length of the run: every step keeps the invariant and the agreement of the two
arrays in the reachable bytes. -/
theorem unspecifiedSramIsNeverSeen : Obligations.UnspecifiedSramIsNeverSeen := by
  intro k s t u h hst hr
  obtain ⟨m, rfl, hm⟩ := looksLike_iff.1 hst
  obtain ⟨n, hr', hn⟩ := runSteps_agrees h hm hr
  exact ⟨u.setArray n, hr', rfl, looksLike_iff.2 ⟨n, rfl, hn⟩⟩

end Sys2Proof.Laws
end

section
/-! Where a command stops, and what a step does to CFG, to the bits of the array and to the error record
(10_state.md R24, R26, R37, R38). -/

namespace Sys2Proof.Laws

open Sys2Proof.Machine

/-! ### Where a command stops (log entry 8) -/

theorem memRead_of_ge {j : Nat} {s : State} (h : s.nbytesMax ≤ j) (k : Byte → Outcome) :
    memRead j s k = .fault (.noSuchArrayByte j) :=
  if_neg (Nat.not_lt.2 h)

theorem getBitOp_of_ge {i : Nat} {s : State} (h : s.nbytesMax ≤ i / 8) :
    getBitOp i s = .fault (.noSuchArrayByte (i / 8)) :=
  memRead_of_ge h _

theorem setBitOp_of_ge {i : Nat} {s : State} (h : s.nbytesMax ≤ i / 8) :
    setBitOp i s = .fault (.noSuchArrayByte (i / 8)) :=
  orIntoByte_of_ge (Nat.not_lt.2 h) _ _

/-- A next state, or a stop at a byte that does not exist. -/
def AnswersOrStops (s : State) (o : Outcome) : Prop :=
  (∃ t, o = .next t) ∨ ∃ j, s.nbytesMax ≤ j ∧ o = .fault (.noSuchArrayByte j)

theorem answersOrStops_next (s t : State) : AnswersOrStops s (.next t) := .inl ⟨t, rfl⟩

theorem answersOrStops_memRead {j : Nat} {s : State} {k : Byte → Outcome} (hk : ∀ b, AnswersOrStops s (k b)) :
    AnswersOrStops s (memRead j s k) := by
  rcases Nat.lt_or_ge j s.nbytesMax with hj | hj
  · rw [memRead_of_lt hj]
    exact hk _
  · exact .inr ⟨j, hj, memRead_of_ge hj k⟩

theorem answersOrStops_orIntoByte {j : Nat} {v : Byte} {s : State} {k : State → Outcome}
    (hk : ∀ t, AnswersOrStops s (k t)) : AnswersOrStops s (orIntoByte j v s k) := by
  rcases Nat.lt_or_ge j s.nbytesMax with hj | hj
  · rw [orIntoByte_of_lt hj]
    exact hk _
  · exact .inr ⟨j, hj, memRead_of_ge hj _⟩

theorem answersOrStops_body (i : Instr) (s : State) : AnswersOrStops s (body i s) := by
  cases i with
  | nop | init | reduce | clrerr => exact answersOrStops_next s _
  | setb | seth | orbyte => exact answersOrStops_orIntoByte fun _ => answersOrStops_next s _
  | getb | geth | rdbyte => exact answersOrStops_memRead fun _ => answersOrStops_next s _

theorem answersOrStops_exec (i : Instr) (s : State) : AnswersOrStops s (exec i s) := by
  cases hi : errorOf i s with
  | some c =>
    rw [exec_of_error hi]
    exact answersOrStops_next s _
  | none =>
    rw [exec_of_noError hi]
    exact answersOrStops_body i s

/-- Settles O7: a command with an error condition answers, and every other one answers or stops at the one byte it
reads first. -/
theorem stopsOnlyWhereNoByteExists : Obligations.StopsOnlyWhereNoByteExists := by
  refine ⟨answersOrStops_exec, ?_, ?_, ?_⟩
  · rintro i s (rfl | rfl) hc hi hj
    · exact (exec_of_noError (by simp [errorOf, hc, hi])).trans (setBitOp_of_ge hj)
    · exact (exec_of_noError (by simp [errorOf, hc, hi])).trans (getBitOp_of_ge hj)
  · rintro i s (rfl | rfl) hc hj
    · exact (exec_of_noError (by simp [errorOf, hc])).trans (setBitOp_of_ge hj)
    · exact (exec_of_noError (by simp [errorOf, hc])).trans (getBitOp_of_ge hj)
  · rintro i s (rfl | rfl) hc hi hj
    · rw [exec_of_noError (by simp [errorOf, hc, hi]), body, memRead_of_ge hj]
    · exact (exec_of_noError (by simp [errorOf, hc, hi])).trans (orIntoByte_of_ge (Nat.not_lt.2 hj) _ _)

/-! ### A CMD write runs the decoded command -/

theorem step_command {s : State} {w : Word} {rest : List HostEvent} (h : s.host = commandAccess w :: rest) :
    step s = execWord w (taken s rest) := by
  rw [step_cons h, perform_command]

theorem withFetchWord_host (s : State) (w : Word) :
    (s.withFetchWord 32 w.toNat).host = commandAccess w :: s.host := by
  simp [State.withFetchWord, Nat.mod_eq_of_lt w.isLt]

/-- Settles O12: the first event is the CMD write, in the given list or as `withFetchWord` places it. -/
theorem stepRunsDecodedCommand : Obligations.StepRunsDecodedCommand := by
  have hrun : ∀ (s : State) (w : Word) (i : Instr) (rest : List HostEvent),
      s.host = commandAccess w :: rest → decode w = .ok i → step s = exec i (taken s rest) := by
    intro s w i rest hh hw
    rw [step_command hh, execWord_ok hw]
  exact ⟨hrun, fun s w i hw => ⟨decodeTableWord_of_decode hw, hrun _ w i s.host (withFetchWord_host s w) hw⟩⟩

/-! ### CFG -/

theorem exec_init_cfg {s t : State} (h : exec .init s = .next t) :
    (1 ≤ s.operand.toNat ∧ s.operand.toNat ≤ s.cap.toNat → t.cfg = true) ∧
      (s.operand.toNat = 0 ∨ s.cap.toNat < s.operand.toNat → t.cfg = s.cfg) := by
  cases exec_effect h with
  | failed hc =>
    refine ⟨fun ⟨h1, hn⟩ => ?_, fun _ => State.recordError_cfg _ _ _⟩
    simp [errorOf_init_eq_none h1 hn] at hc
  | init h1 hn => exact ⟨fun _ => rfl, fun _ => by omega⟩

/-- A step leaves CFG, sets it by an INIT that succeeds, or clears it by reset (10_state.md R24). -/
theorem step_cfg {s t : State} (h : step s = .next t) :
    t.cfg = s.cfg ∨
    (t.cfg = true ∧ ∃ rest, s.host = commandAccess (encode .init) :: rest ∧
      1 ≤ s.operand.toNat ∧ s.operand.toNat ≤ s.cap.toNat) ∨
    (t.cfg = false ∧ ∃ rest, s.host = .reset :: rest) := by
  cases step_case h with
  | quiet ht => exact .inl (ht.cfg_eq)
  | @command w rest i _ hh hw he =>
    cases he with
    | init h1 hn => exact .inr (.inl ⟨rfl, rest, eq_encode_of_decode hw ▸ hh, h1, hn⟩)
    | _ => exact .inl (by simp)
  | illegal => exact .inl (by simp)
  | @reset rest hh => exact .inr (.inr ⟨rfl, rest, hh⟩)

/-- Settles O9, from what INIT does to CFG, what a step does to it and the error condition of the array commands. -/
theorem cfgSetByInitClearedByReset : Obligations.CfgSetByInitClearedByReset := by
  refine ⟨rfl, statusWord_cfg, fun s t => exec_init_cfg, ?_, ?_, ?_⟩
  · intro s t h hs ht
    rcases step_cfg h with hc | ⟨hc, -⟩ | ⟨-, hreset⟩
    · simp [hs, ht] at hc
    · simp [ht] at hc
    · exact hreset
  · intro s t h hs ht
    rcases step_cfg h with hc | ⟨-, hinit⟩ | ⟨hc, -⟩
    · simp [hs, ht] at hc
    · exact hinit
    · simp [ht] at hc
  · intro s i hc hi
    exact exec_of_error (errorOf_of_not_cfg hc hi)

/-! ### The bits of the array -/

theorem endsLifetime_reset {s : State} {rest : List HostEvent} (h : s.host = .reset :: rest) :
    s.endsLifetime = true := by
  simp [State.endsLifetime, h]

/-- Within a lifetime an INIT that is issued fails. -/
theorem init_fails_of_not_endsLifetime {s : State} (h : s.endsLifetime = false) {w : Word} {rest : List HostEvent}
    {i : Instr} (hh : s.host = commandAccess w :: rest) (hw : decode w = .ok i) :
    i = .init → errorOf .init (taken s rest) ≠ none := by
  rintro rfl he
  have hinit : s.host = commandAccess (encode .init) :: rest := eq_encode_of_decode hw ▸ hh
  rw [errorOf_respond_withHost] at he
  simp [State.endsLifetime, hinit, he, commandAccess] at h

theorem Effect.bit_mono {s t : State} {i : Instr} (he : Effect s i t) (hn : i = .init → errorOf .init s ≠ none)
    {k : Nat} (hk : s.bit k = true) : t.bit k = true := by
  cases he with
  | init h1 h2 => exact absurd (errorOf_init_eq_none h1 h2) (hn rfl)
  | setb | seth | orbyte => exact bit_orred_mono _ _ hk
  | failed => simpa [State.bit_eq] using hk
  | _ => exact hk

/-- Settles O30: within a lifetime only SETB, SETH and ORBYTE write the array, and they OR into it. -/
theorem bitsAreOnlySet : Obligations.BitsAreOnlySet := by
  intro s t hlife hs
  cases step_case hs with
  | quiet ht =>
    have harray : t.array = s.array := ht.array_eq
    exact ⟨fun k hk => by rwa [State.bit_eq, harray], fun _ a => by rw [harray]⟩
  | @command w rest i _ hh hw he =>
    have hinit := init_fails_of_not_endsLifetime hlife hh hw
    refine ⟨fun k hk => he.bit_mono hinit hk, fun hwords a => ?_⟩
    obtain ⟨hsetb, hseth, horbyte⟩ := hwords w rest hh
    have hi : i ∉ [Instr.setb, .seth, .orbyte] := by
      rw [eq_encode_of_decode hw] at hsetb hseth horbyte
      rintro hi
      simp only [List.mem_cons, List.not_mem_nil, or_false] at hi
      rcases hi with rfl | rfl | rfl
      · exact hsetb rfl
      · exact hseth rfl
      · exact horbyte rfl
    rw [he.array_eq hi hinit]
    rfl
  | illegal => exact ⟨fun k hk => by simpa [State.bit_eq] using hk, fun _ a => by simp⟩
  | reset hh => simp [endsLifetime_reset hh] at hlife

/-! ### The error record -/

/-- The error record of `t` is that of `s`. -/
def SameRecord (s t : State) : Prop := t.err = s.err ∧ t.errcode = s.errcode ∧ t.errop = s.errop

theorem sameRecord_recordError {s : State} (h : s.err = true) (op : Byte) (c : ErrCode) :
    SameRecord s (s.recordError op c) := by
  rw [State.recordError_of_err s op c h]
  exact ⟨rfl, rfl, rfl⟩

/-- A failure is recorded when no earlier one is (60_exceptions.md R97). -/
theorem recordError_record (s : State) (op : Byte) (c : ErrCode) :
    (s.err = false ∧ (s.recordError op c).err = true ∧ (s.recordError op c).errcode = c ∧
        (s.recordError op c).errop = op) ∨ SameRecord s (s.recordError op c) := by
  cases he : s.err with
  | true => exact .inr (sameRecord_recordError he op c)
  | false => exact .inl ⟨rfl, by simp [he]⟩

/-- A step clears the record by reset or CLRERR, records the failure of the CMD word it runs, or leaves the record
(10_state.md R26). -/
theorem step_record {s t : State} (h : step s = .next t) :
    (∃ rest, s.host = .reset :: rest ∨ s.host = commandAccess (encode .clrerr) :: rest) ∧
        t.err = false ∧ t.errcode = .noError ∧ t.errop = 0 ∨
      (∃ w rest c, s.host = commandAccess w :: rest ∧ s.err = false ∧ errorOfWord w s = some c ∧
        t.err = true ∧ t.errcode = c ∧ t.errop = opcField w) ∨ SameRecord s t := by
  cases step_case h with
  | quiet ht => exact .inr (.inr ht.record)
  | @command w rest i _ hh hw he =>
    cases he with
    | @failed _ c hc =>
      rw [← opcField_of_decode hw]
      rw [errorOf_respond_withHost, ← errorOfWord_ok hw] at hc
      exact .inr ((recordError_record (taken s rest) _ c).imp (fun ⟨hs, ht⟩ => ⟨w, rest, c, hh, hs, hc, ht⟩) id)
    | clrerr => exact .inl ⟨⟨rest, .inr (eq_encode_of_decode hw ▸ hh)⟩, rfl, rfl, rfl⟩
    | _ => exact .inr (.inr ⟨rfl, rfl, rfl⟩)
  | @illegal w rest d hh hw =>
    exact .inr ((recordError_record (taken s rest) _ _).imp
      (fun ⟨hs, ht⟩ => ⟨w, rest, _, hh, hs, errorOfWord_error hw s, ht⟩) id)
  | @reset rest hh => exact .inl ⟨⟨rest, .inl hh⟩, rfl, rfl, rfl⟩

theorem step_err_of_error {s t : State} {w : Word} {rest : List HostEvent} {c : ErrCode}
    (hh : s.host = commandAccess w :: rest) (hc : errorOfWord w s = some c) (h : step s = .next t) : t.err = true := by
  rw [step_command hh, execWord_of_error (s := taken s rest) hc, Host.Outcome.next.injEq] at h
  rw [← h, State.recordError_err]

/-- Settles O55, from the fields of STATUS and what a step does to the record. -/
theorem errorRecordIsSticky : Obligations.ErrorRecordIsSticky := by
  refine ⟨fun s => ⟨statusWord_err s, statusWord_errcode s, statusWord_errop s⟩, ⟨rfl, rfl, rfl⟩,
    fun s t => step_record, fun s t w rest c => step_err_of_error, fun s t h hs ht => ?_⟩
  rcases step_record h with ⟨hclear, -⟩ | ⟨w, rest, c, -, -, -, herr, -⟩ | ⟨herr, -⟩
  · exact hclear
  · simp [ht] at herr
  · simp [hs, ht] at herr

end Sys2Proof.Laws
end

section
/-! The register window: what stands at each offset, what its read returns and what its write stores; and the registers
after reset (10_state.md R20 to R36, R42). -/

namespace Sys2Proof.Laws

open Sys2Proof.Machine

/-! ### Offsets -/

theorem target_eq_some_iff (off : Offset) (r : Reg) : target (.bits 32) off = some r ↔ off = r.offset := by
  constructor
  · exact fun h => (target_some h).2
  · rintro rfl
    exact target_offset r

/-- Settles O39: every register is reached at its offset, and an offset reaches no other register. -/
theorem registerOffsetsAreExact : Obligations.RegisterOffsetsAreExact := target_eq_some_iff

theorem target_map_readReg (r : Reg) (s : State) :
    (target (.bits 32) r.offset).map (readReg · s) = some (readReg r s) := by
  rw [target_offset, Option.map_some]

/-- Word `k` of a 128-bit register reads as its bits `32k+31 : 32k` (10_state.md R34). -/
theorem target_map_readReg_wide (x : WideReg) (s : State) {k : Nat} (hk : k < 4) :
    (target (.bits 32) (BitVec.ofNat 8 (x.base + 4 * k))).map (readReg · s) =
      some ((x.get s).extractLsb' (32 * k) 32) :=
  target_map_readReg (.wide x ⟨k, hk⟩) s

/-! ### What a read returns -/

theorem readReg_ctrl (s : State) : readReg .ctrl s = s.hmode.toBits.setWidth 32 := by
  rw [readReg, ctrlWord]
  cases s.hmode <;> rfl

theorem readReg_data (s : State) : readReg .data s = s.data.setWidth 32 := by
  rw [readReg, dataWord]
  exact (BitVec.setWidth_eq_append (by omega)).symm

theorem readReg_status (s : State) :
    readReg .status s =
      (BitVec.ofBool s.cfg).setWidth 32 ||| (BitVec.ofBool s.result).setWidth 32 <<< 1
        ||| (BitVec.ofBool s.err).setWidth 32 <<< 2 ||| s.errcode.toBits.setWidth 32 <<< 4
        ||| s.errop.setWidth 32 <<< 8 := by
  refine (BitVec.setWidth_eq _).symm.trans ?_
  simp only [readReg, statusWord, BitVec.setWidth_append_eq_shiftLeft_setWidth_or, BitVec.shiftLeft_or_distrib,
    ← BitVec.shiftLeft_add, BitVec.setWidth_zero, BitVec.zero_shiftLeft, BitVec.zero_or, BitVec.or_zero]
  ac_rfl

/-- Each mode has its own number in CTRL (10_state.md R22). -/
theorem readReg_ctrl_eq_iff (s : State) :
    (s.hmode = .u32 ↔ readReg .ctrl s = 0) ∧ (s.hmode = .s32 ↔ readReg .ctrl s = 1) ∧
      (s.hmode = .u128 ↔ readReg .ctrl s = 2) ∧ (s.hmode = .s128 ↔ readReg .ctrl s = 3) := by
  rw [readReg_ctrl]
  cases s.hmode <;> decide

/-- Each error code has its own number in STATUS bits 7:4 (60_exceptions.md R95). -/
theorem readReg_status_errcode_eq_iff (s : State) :
    (s.errcode = .noError ↔ (readReg .status s).extractLsb' 4 4 = 0) ∧
      (s.errcode = .invalidParameters ↔ (readReg .status s).extractLsb' 4 4 = 1) ∧
      (s.errcode = .indexOutOfRange ↔ (readReg .status s).extractLsb' 4 4 = 2) ∧
      (s.errcode = .illegalCommand ↔ (readReg .status s).extractLsb' 4 4 = 3) ∧
      (s.errcode = .notConfigured ↔ (readReg .status s).extractLsb' 4 4 = 4) := by
  rw [readReg, statusWord_errcode]
  cases s.errcode <;> decide

/-- Settles O40, register by register. -/
theorem registerReadsReturnFields : Obligations.RegisterReadsReturnFields := fun s =>
  ⟨readReg_ctrl s ▸ target_map_readReg .ctrl s, readReg_status s ▸ target_map_readReg .status s,
    readReg_ctrl_eq_iff s, readReg_status_errcode_eq_iff s, target_map_readReg .cmd s,
    readReg_data s ▸ target_map_readReg .data s, fun _ hk =>
      ⟨target_map_readReg_wide .operand s hk, target_map_readReg_wide .size s hk, target_map_readReg_wide .bytes s hk,
        target_map_readReg_wide .idx s hk, target_map_readReg_wide .cap s hk⟩⟩

/-! ### CAP and reset -/

theorem step_cap {s t : State} (h : step s = .next t) : t.cap = s.cap := by
  cases step_case h with
  | quiet ht => exact ht.cap_eq
  | command _ _ he =>
    obtain ⟨-, -, hcap, -⟩ := he.fixed
    exact hcap
  | illegal => simp
  | reset => rfl

/-- Settles O8: the reset value, every step and every read of CAP. -/
theorem capIsConstant : Obligations.CapIsConstant :=
  ⟨reset_cap_toNat, nbitsMax_bounds, fun _ _ => step_cap, fun s _ hk => target_map_readReg_wide .cap s hk⟩

theorem read_unfilled (draw a : Nat) : (Memory.mk [] 0 draw).read a = Config.sramByte draw a := rfl

/-- Settles O1: the registers are the reset literal's, and no byte is listed or zero-filled. -/
theorem resetLeavesSpecValues : Obligations.ResetLeavesSpecValues :=
  ⟨rfl, rfl, rfl, rfl, rfl, rfl, rfl, rfl, rfl, rfl, rfl, rfl, reset_cap_toNat, read_unfilled 0⟩

/-! ### What a write stores -/

theorem step_write_reg {s : State} {r : Reg} {w : Word} {rest : List HostEvent} (hr : r ≠ .cmd)
    (h : s.host = .write (.bits 32) r.offset w :: rest) : step s = .next (writeReg r w (taken s rest)) := by
  rw [step_cons h, perform_write_reg hr]

/-- The offsets 0x20 to 0x5C hold the words of SIZE, BYTES, IDX and CAP (10_state.md R20, R34). -/
theorem wide_of_offset {off : Offset} (h4 : off.toNat % 4 = 0) (hlo : 0x20 ≤ off.toNat) (hhi : off.toNat ≤ 0x5C) :
    ∃ x k, x ≠ WideReg.operand ∧ off = (Reg.wide x k).offset := by
  have hrow : off.toNat / 16 = 2 ∨ off.toNat / 16 = 3 ∨ off.toNat / 16 = 4 ∨ off.toNat / 16 = 5 := by omega
  have hoff : ∀ x : WideReg, x.base = off.toNat / 16 * 16 →
      off = (Reg.wide x ⟨off.toNat / 4 % 4, by omega⟩).offset := by
    intro x hx
    apply BitVec.eq_of_toNat_eq
    rw [Reg.offset, hx, BitVec.toNat_ofNat]
    dsimp only
    omega
  rcases hrow with h | h | h | h
  · exact ⟨.size, _, by decide, hoff _ (by rw [h]; rfl)⟩
  · exact ⟨.bytes, _, by decide, hoff _ (by rw [h]; rfl)⟩
  · exact ⟨.idx, _, by decide, hoff _ (by rw [h]; rfl)⟩
  · exact ⟨.cap, _, by decide, hoff _ (by rw [h]; rfl)⟩

theorem writeReg_wide_readOnly {x : WideReg} (hx : x ≠ .operand) (k : Fin 4) (w : Word) (s : State) :
    writeReg (.wide x k) w s = s := by
  cases x with
  | operand => contradiction
  | size | bytes | idx | cap => rfl

/-- Settles O43: the offset is that of STATUS or of a word of SIZE, BYTES, IDX or CAP, which store nothing. -/
theorem readOnlyWritesIgnored : Obligations.ReadOnlyWritesIgnored := by
  rintro s off w rest h4 (rfl | ⟨hlo, hhi⟩) hh
  · exact step_write_reg (r := .status) nofun hh
  · obtain ⟨x, k, hx, rfl⟩ := wide_of_offset h4 hlo hhi
    rw [step_write_reg (r := .wide x k) nofun hh, writeReg_wide_readOnly hx]
    rfl

/-- Settles O45: the write of word `k` sets that word of OPERAND, bit by bit. -/
theorem operandWordWriteReplacesItsBits : Obligations.OperandWordWriteReplacesItsBits := by
  intro s k w rest hk hh
  exact ⟨_, step_write_reg (r := .wide .operand ⟨k, hk⟩) nofun hh, rfl, getLsbD_setWordOf s.operand ⟨k, hk⟩ w⟩

/-- A mode stored is the mode with the bits written (10_state.md R21, R22). -/
theorem toBits_ofBits (b : BitVec 2) : (HMode.ofBits b).toBits = b := by
  revert b
  decide

theorem toBits_ofBits_toNat (w : Word) : (HMode.ofBits (w.extractLsb' 0 2)).toBits.toNat = w.toNat % 4 := by
  simp [toBits_ofBits]

/-- The number of a mode names it. -/
theorem hmode_of_toBits (m : HMode) :
    (m.toBits.toNat = 0 → m = .u32) ∧ (m.toBits.toNat = 1 → m = .s32) ∧ (m.toBits.toNat = 2 → m = .u128) ∧
      (m.toBits.toNat = 3 → m = .s128) := by
  cases m <;> decide

/-- Settles O44: CTRL stores the mode of bits 1:0, DATA stores bits 7:0. -/
theorem ctrlAndDataWritesStore : Obligations.CtrlAndDataWritesStore := by
  intro s w rest
  refine ⟨fun hh => ⟨_, step_write_reg (r := .ctrl) nofun hh, rfl, toBits_ofBits_toNat w, ?_⟩, fun hh => ?_⟩
  · rw [← toBits_ofBits_toNat w]
    exact hmode_of_toBits _
  · exact step_write_reg (r := .data) nofun hh

end Sys2Proof.Laws
end

section
/-! The bit array's layout, and the window access by access: its bytes, its reads and its bus errors
(20_memory.md R48 to R54). -/

namespace Sys2Proof.Laws

open Sys2Proof.Machine

/-! ### The layout of the bit array -/

theorem bitIn_eq_decide (b : Byte) (i : Nat) : bitIn b i = decide (b.toNat / 2 ^ (i % 8) % 2 = 1) := by
  rw [bitIn_eq_getLsbD, BitVec.getLsbD, Nat.testBit_eq_decide_div_mod_eq]

theorem bitMask_toNat (i : Nat) : (bitMask i).toNat = 2 ^ (i % 8) := by
  have hlt : 2 ^ (i % 8) < 2 ^ 8 := Nat.pow_lt_pow_right (by decide) (Nat.mod_lt i (by decide))
  rw [bitMask, BitVec.toNat_shiftLeft, BitVec.toNat_ofNat, Nat.one_mod, Nat.one_shiftLeft, Nat.mod_eq_of_lt hlt]

/-- The example of 20_memory.md R49: the bits that 0x28 holds. -/
theorem bitIn_0x28 : ∀ i < 8, bitIn 0x28 i = true ↔ i = 3 ∨ i = 5 := by decide

/-- Settles O38: a bit as a quotient of its byte, a mask as a power of two, and the bits of byte 0x28. -/
theorem bitsAreLsbFirst : Obligations.BitsAreLsbFirst := by
  refine ⟨fun s i => bitIn_eq_decide _ i, bitMask_toNat, fun s h i hi => ?_⟩
  rw [State.bit_eq, Nat.div_eq_of_lt hi, h]
  exact bitIn_0x28 i hi

/-! ### Where the registers stand -/

/-- Every register stands at a multiple of 4 below 0x60 (10_state.md R20). -/
theorem offset_aligned_lt (r : Reg) : r.offset.toNat % 4 = 0 ∧ r.offset.toNat < 0x60 := by
  cases r with
  | ctrl | status | cmd | data => decide
  | wide x k => cases x <;> revert k <;> decide

/-! ### The window as bytes -/

theorem windowByte_offset_add (s : State) (r : Reg) {b : Nat} (hb : b < 4) :
    windowByte (BitVec.ofNat 8 (r.offset.toNat + b)) s = some ((readReg r s).extractLsb' (8 * b) 8) := by
  obtain ⟨h4, hlt⟩ := offset_aligned_lt r
  have haddr : (BitVec.ofNat 8 (r.offset.toNat + b)).toNat = r.offset.toNat + b := by
    rw [BitVec.toNat_ofNat]
    omega
  have hword : (r.offset.toNat + b) / 4 * 4 = r.offset.toNat := by omega
  have hbyte : (r.offset.toNat + b) % 4 = b := by omega
  rw [windowByte, haddr, hword, hbyte, BitVec.ofNat_toNat, BitVec.setWidth_eq, ofOffset_offset, Option.map_some]

/-- Byte `j` of a 128-bit value is byte `j mod 4` of its word `j div 4` (10_state.md R34; 20_memory.md R51). -/
theorem extractLsb'_wordOf (x : Quad) {j : Nat} (hj : j / 4 < 4) :
    (wordOf x ⟨j / 4, hj⟩).extractLsb' (8 * (j % 4)) 8 = x.extractLsb' (8 * j) 8 := by
  apply BitVec.eq_of_getLsbD_eq
  intro i hi
  have hword : 8 * (j % 4) + i < 32 := by omega
  have hbit : 32 * (j / 4) + (8 * (j % 4) + i) = 8 * j + i := by omega
  simp [wordOf, BitVec.getLsbD_extractLsb', hword, hbit]

/-- Settles O46: an address of the window is a register's offset and a byte of its word, and OPERAND's sixteen bytes
are those of its four words. -/
theorem windowBytesAreLittleEndian : Obligations.WindowBytesAreLittleEndian := by
  refine ⟨fun s r b => windowByte_offset_add s r, fun s j hj => ?_⟩
  have hk : j / 4 < 4 := by omega
  have hoff : 0x10 + j = (Reg.wide .operand ⟨j / 4, hk⟩).offset.toNat + j % 4 := by
    rw [Reg.offset, WideReg.base, BitVec.toNat_ofNat]
    dsimp only
    omega
  rw [hoff, windowByte_offset_add s _ (Nat.mod_lt j (by decide)), readReg, WideReg.get, extractLsb'_wordOf]

/-! ### Reads and bus errors -/

/-- Settles O41: an aligned 32-bit read of a register's offset reaches that register and is answered. -/
theorem readsHaveNoSideEffects : Obligations.ReadsHaveNoSideEffects := by
  intro s r rest hh
  exact (step_cons hh).trans (perform_rd r (s.withHost rest))

/-- An access of another width, or at an offset where no register stands, reaches none (20_memory.md R52, R53). -/
theorem target_eq_none {width : Width} {off : Offset}
    (h : width ≠ .bits 32 ∨ off.toNat % 4 ≠ 0 ∨ 0x60 ≤ off.toNat) : target width off = none := by
  rw [Option.eq_none_iff_forall_ne_some]
  intro r hr
  obtain ⟨rfl, rfl⟩ := target_some hr
  obtain ⟨h4, hlt⟩ := offset_aligned_lt r
  rcases h with hwidth | hmod | hge
  · exact hwidth rfl
  · exact hmod h4
  · exact absurd hlt (Nat.not_lt.2 hge)

/-- Settles O42: such an access reaches no register, so a read and a write of it are answered by a bus error alone. -/
theorem busErrorChangesNothing : Obligations.BusErrorChangesNothing := by
  intro s width off w rest hbad hh
  have hnone := target_eq_none hbad
  rcases hh with hh | hh
  · rw [step_cons hh, perform_read, hnone]
    rfl
  · exact (step_cons hh).trans (perform_write_none hnone _ w)

end Sys2Proof.Laws
end

section
/-! What the ten commands reach of the array, and that each is idempotent (20_memory.md R47, R54; 40_bitfield.md
R77). -/

namespace Sys2Proof.Laws

open Sys2Proof.Machine

/-! ### The bytes and bits a command leaves -/

theorem read_orred_other (s : State) {j a : Nat} (v : Byte) (h : a ≠ j) :
    (orred s j v).array.read a = s.array.read a :=
  read_write_other s.array _ h

theorem bit_orred_other (s : State) {i k : Nat} (h : k ≠ i) : (orred s (i / 8) (bitMask i)).bit k = s.bit k := by
  rw [bit_orred, beq_false_of_ne h, Bool.or_false]

/-- No command but INIT writes a byte at or above BYTES (20_memory.md R47). -/
theorem Effect.read_eq {s t : State} {i : Instr} (he : Effect s i t) (h : s.Inv) (hi : i ≠ .init) {a : Nat}
    (ha : s.bytes.toNat ≤ a) : t.array.read a = s.array.read a := by
  have houtside : ∀ {j : Nat}, j < s.bytes.toNat → a ≠ j := fun hj => (hj.trans_le ha).ne'
  cases he with
  | init => contradiction
  | setb hc hk => exact read_orred_other s _ (houtside (index_byte h hc hk).1)
  | seth hc => exact read_orred_other s _ (houtside (index_byte h hc (hashIndex_lt_size h hc)).1)
  | orbyte hc hj => exact read_orred_other s _ (houtside hj)
  | failed => rw [State.recordError_array]
  | _ => rfl

/-- No command but INIT and ORBYTE writes a bit at or above SIZE (20_memory.md R47; 40_bitfield.md R77). -/
theorem Effect.bit_eq {s t : State} {i : Instr} (he : Effect s i t) (h : s.Inv) (hn : i ≠ .init) (ho : i ≠ .orbyte)
    {k : Nat} (hk : s.size.toNat ≤ k) : t.bit k = s.bit k := by
  cases he with
  | init | orbyte => contradiction
  | setb hc hi => exact bit_orred_other s (hi.trans_le hk).ne'
  | seth hc => exact bit_orred_other s ((hashIndex_lt_size h hc).trans_le hk).ne'
  | failed => rw [State.bit_eq, State.recordError_array, State.bit_eq]
  | _ => rfl

/-- Settles O29: of the effects a command can have, those that write the array OR into a byte below BYTES, and SETB and
SETH into a bit below SIZE. -/
theorem commandsStayInsideTheArray : Obligations.CommandsStayInsideTheArray := fun _ _ _ h hi he =>
  ⟨fun _ => (exec_effect he).read_eq h hi, fun ho _ => (exec_effect he).bit_eq h hi ho⟩

/-! ### A command done twice -/

/-- A command leaves its own error condition as it was: it reads no register that it writes there. -/
theorem Effect.errorOf_eq {s t : State} {i : Instr} (he : Effect s i t) : errorOf i t = errorOf i s := by
  obtain ⟨-, hoperand, hcap, -⟩ := he.fixed
  by_cases hi : i = .init
  · subst hi
    simp only [errorOf, hoperand, hcap]
  · obtain ⟨hsize, hbytes, hcfg⟩ := he.configuration hi
    cases i <;> simp only [errorOf, hoperand, hcap, hsize, hbytes, hcfg]

theorem recordError_twice (s : State) (op : Byte) (c : ErrCode) :
    (s.recordError op c).recordError op c = s.recordError op c :=
  State.recordError_of_err _ op c (State.recordError_err s op c)

theorem orred_setIdx (s : State) (i j : Nat) (v : Byte) : orred (s.setIdx i) j v = (orred s j v).setIdx i := rfl

theorem setBitOp_twice {s : State} (h : s.array.wf) {i : Nat} (hj : i / 8 < s.nbytesMax) :
    setBitOp i ((orred s (i / 8) (bitMask i)).setIdx i) = .next ((orred s (i / 8) (bitMask i)).setIdx i) := by
  rw [setBitOp_of_lt (s := (orred s (i / 8) (bitMask i)).setIdx i) hj, orred_setIdx, orred_twice h]
  rfl

theorem getBitOp_twice {s : State} {i : Nat} (hj : i / 8 < s.nbytesMax) :
    getBitOp i ((s.setResult (s.bit i)).setIdx i) = .next ((s.setResult (s.bit i)).setIdx i) :=
  getBitOp_of_lt (s := (s.setResult (s.bit i)).setIdx i) hj

theorem orIntoByte_twice {s : State} (h : s.array.wf) {j : Nat} (hj : j < s.nbytesMax) (v : Byte) :
    orIntoByte j v (orred s j v) .next = .next (orred s j v) := by
  rw [orIntoByte_of_lt (s := orred s j v) hj, orred_twice h]

theorem inited_twice (s : State) (n : Nat) : inited (inited s n) n = inited s n :=
  congrArg (fun m => (s.setArray m).configure n) (zeroFill_zeroFill s.array (ceil8 n))

/-- A command's own effect, where it has been done already, is no change. -/
theorem Effect.body_twice {s t : State} {i : Instr} (he : Effect s i t) (hwf : s.array.wf)
    (hn : errorOf i s = none) : body i t = .next t := by
  cases he with
  | failed hc => simp [hn] at hc
  | nop | clrerr | reduce => rfl
  | init => exact congrArg Host.Outcome.next (inited_twice s s.operand.toNat)
  | setb _ _ hj | seth _ hj => exact setBitOp_twice hwf hj
  | getb _ _ hj | geth _ hj => exact getBitOp_twice hj
  | rdbyte _ _ hj =>
    rw [body, State.setData_operand, memRead_of_lt (s := s.setData (s.array.read s.operand.toNat)) hj]
    rfl
  | orbyte _ _ hj => exact orIntoByte_twice hwf hj s.data

/-- Settles O31: the second time the command meets the same error condition, which is recorded already, or none, and
then its own effect is no change. -/
theorem commandsAreIdempotent : Obligations.CommandsAreIdempotent := by
  intro i s t hwf he
  have heffect := exec_effect he
  cases hi : errorOf i s with
  | some c =>
    rw [exec_of_error (heffect.errorOf_eq.trans hi)]
    rw [exec_of_error hi, Host.Outcome.next.injEq] at he
    rw [← he, recordError_twice]
  | none => rw [exec_of_noError (heffect.errorOf_eq.trans hi), heffect.body_twice hwf hi]

end Sys2Proof.Laws
end

section
/-! A run of steps is its accesses performed in issue order (20_memory.md R56): no access reads or writes the list of
the accesses still to come, so performing one commutes with setting that list. -/

namespace Sys2Proof.Laws

open Sys2Proof.Machine

/-- The outcome with `es` as the events still to come in its next state. -/
def outcomeWithHost (es : List HostEvent) : Outcome → Outcome
  | .next t => .next (t.withHost es)
  | .fault f => .fault f
  | .refused r => .refused r

/-! ### The same command whatever is still to come -/

theorem memRead_withHost (es : List HostEvent) (j : Nat) (s : State) {k k' : Byte → Outcome}
    (hk : ∀ b, k' b = outcomeWithHost es (k b)) :
    memRead j (s.withHost es) k' = outcomeWithHost es (memRead j s k) := by
  rcases Nat.lt_or_ge j s.nbytesMax with hj | hj
  · rw [memRead_of_lt hj, memRead_of_lt (s := s.withHost es) hj]
    exact hk _
  · rw [memRead_of_ge hj, memRead_of_ge (s := s.withHost es) hj]
    rfl

theorem getBitOp_withHost (es : List HostEvent) (i : Nat) (s : State) :
    getBitOp i (s.withHost es) = outcomeWithHost es (getBitOp i s) :=
  memRead_withHost es (i / 8) s fun _ => rfl

theorem orIntoByte_withHost (es : List HostEvent) (j : Nat) (v : Byte) (s : State) {k : State → Outcome}
    (hk : ∀ t, k (t.withHost es) = outcomeWithHost es (k t)) :
    orIntoByte j v (s.withHost es) k = outcomeWithHost es (orIntoByte j v s k) := by
  rcases Nat.lt_or_ge j s.nbytesMax with hj | hj
  · rw [orIntoByte_of_lt hj, orIntoByte_of_lt (s := s.withHost es) hj]
    exact hk (orred s j v)
  · rw [orIntoByte_of_ge (Nat.not_lt.2 hj), orIntoByte_of_ge (s := s.withHost es) (Nat.not_lt.2 hj)]
    rfl

theorem body_withHost (es : List HostEvent) (i : Instr) (s : State) :
    body i (s.withHost es) = outcomeWithHost es (body i s) := by
  cases i with
  | nop | init | reduce | clrerr => rfl
  | setb | seth | orbyte => exact orIntoByte_withHost es _ _ s fun _ => rfl
  | getb | geth => exact getBitOp_withHost es _ s
  | rdbyte => exact memRead_withHost es _ s (k := fun b => .next (s.setData b)) fun _ => rfl

theorem exec_withHost (es : List HostEvent) (i : Instr) (s : State) :
    exec i (s.withHost es) = outcomeWithHost es (exec i s) := by
  cases hi : errorOf i s with
  | some c =>
    rw [exec_of_error hi, exec_of_error (s := s.withHost es) hi, recordError_withHost]
    rfl
  | none =>
    rw [exec_of_noError hi, exec_of_noError (s := s.withHost es) hi, body_withHost]

/-! ### The same access whatever is still to come -/

theorem readReg_withHost (r : Reg) (s : State) (es : List HostEvent) : readReg r (s.withHost es) = readReg r s := by
  cases r with
  | wide x k => cases x <;> rfl
  | ctrl | status | cmd | data => rfl

theorem writeReg_withHost (r : Reg) (w : Word) (s : State) (es : List HostEvent) :
    writeReg r w (s.withHost es) = (writeReg r w s).withHost es := by
  cases r with
  | wide x k => cases x <;> rfl
  | ctrl | status | cmd | data => rfl

theorem execWord_withHost (es : List HostEvent) (w : Word) (s : State) :
    execWord w (s.withHost es) = outcomeWithHost es (execWord w s) := by
  cases hw : decode w with
  | ok i => rw [execWord_ok hw, execWord_ok hw, exec_withHost]
  | error d =>
    rw [execWord_error hw, execWord_error hw, recordError_withHost]
    rfl

theorem perform_withHost (es : List HostEvent) (e : HostEvent) (s : State) :
    perform e (s.withHost es) = outcomeWithHost es (perform e s) := by
  cases e with
  | read width off =>
    rw [perform_read, perform_read]
    cases target width off with
    | none => rfl
    | some r =>
      exact congrArg (fun v => Host.Outcome.next ((s.withHost es).respond (.data v))) (readReg_withHost r s es)
  | write width off w =>
    cases ht : target width off with
    | none =>
      rw [perform_write_none ht, perform_write_none ht]
      rfl
    | some r =>
      obtain ⟨rfl, rfl⟩ := target_some ht
      by_cases hr : r = .cmd
      · subst hr
        exact execWord_withHost es w (s.respond .done)
      · rw [perform_write_reg hr, perform_write_reg hr]
        exact congrArg Host.Outcome.next (writeReg_withHost r w (s.respond .done) es)
  | reset => rfl

/-! ### The run -/

/-- A step from a list of events performs the first of them, before the rest. -/
theorem step_withHost_cons (e : HostEvent) (es : List HostEvent) (s : State) :
    step (s.withHost (e :: es)) = outcomeWithHost es (perform e s) :=
  perform_withHost es e s

/-- Settles O14, by induction on the accesses: the first step and the first access do the same to the block, and each
leaves its own list of events still to come. -/
theorem sequenceAppliesInIssueOrder : Obligations.SequenceAppliesInIssueOrder := by
  intro es rest s
  induction es generalizing s with
  | nil => rfl
  | cons e es ih =>
    rw [List.length_cons, List.cons_append, runSteps, performAll, step_withHost_cons, perform_withHost]
    cases perform e s with
    | next t => exact ih t
    | fault f => rfl
    | refused r => rfl

end Sys2Proof.Laws
end

section
/-! The decoder is exact: which words are commands, which command each is, and what every other word does
(30_encoding.md R64 to R67; 43_control.md R92). -/

namespace Sys2Proof.Laws

open Sys2Proof.Machine

/-! ### The two fields of a word -/

theorem mbzField_eq_zero_iff (w : Word) : mbzField w = 0 ↔ w.toNat / 256 = 0 := by
  have hw := w.isLt
  rw [← BitVec.toNat_inj, mbzField, BitVec.extractLsb'_toNat, Nat.shiftRight_eq_div_pow]
  change _ = 0 ↔ _
  omega

theorem opcField_toNat (w : Word) : (opcField w).toNat = w.toNat % 256 := by
  rw [opcField_eq_ofNat, BitVec.toNat_ofNat]

/-! ### Which words are commands -/

theorem opcodeOf_le_nine (i : Instr) : (opcodeOf i).toNat ≤ 9 := by
  cases i <;> decide

/-- The opcodes 0x00 to 0x09 are those of a command, the others are reserved (30_encoding.md R64, R66). -/
theorem exists_commandOf_iff (b : Byte) : (∃ i, commandOf b = .ok i) ↔ b.toNat ≤ 9 := by
  constructor
  · rintro ⟨i, h⟩
    exact opcodeOf_of_commandOf h ▸ opcodeOf_le_nine i
  · intro hle
    unfold commandOf
    split
    case h_11 => interval_cases b.toNat <;> contradiction
    all_goals exact ⟨_, rfl⟩

theorem decode_eq_ok_iff (w : Word) (i : Instr) :
    decode w = .ok i ↔ mbzField w = 0 ∧ commandOf (opcField w) = .ok i :=
  ⟨mbzField_commandOf_of_decode, fun ⟨hmbz, hopc⟩ => (if_pos hmbz).trans hopc⟩

theorem exists_decode_iff (w : Word) : (∃ i, decode w = .ok i) ↔ w.toNat / 256 = 0 ∧ w.toNat % 256 ≤ 9 := by
  simp only [decode_eq_ok_iff, exists_and_left, exists_commandOf_iff, mbzField_eq_zero_iff, opcField_toNat]

theorem decode_eq_ok_iff_eq_encode (w : Word) (i : Instr) : decode w = .ok i ↔ w = encode i := by
  constructor
  · exact eq_encode_of_decode
  · rintro rfl
    exact (encoding_statement i).1

/-! ### The bytes of a word -/

/-- The four bytes of a word in bus-address order make it up again (20_memory.md R50). -/
theorem decodeBytes_bytesOf (w : Word) : decodeBytes (bytesOf w) = decode w := by
  have hword : w.extractLsb' 24 8 ++ w.extractLsb' 16 8 ++ w.extractLsb' 8 8 ++ w.extractLsb' 0 8 = w := by
    simp only [BitVec.extractLsb'_append_extractLsb'_eq_extractLsb', BitVec.extractLsb'_eq_self]
  exact congrArg decode hword

/-! ### The words that are none -/

theorem execWord_of_not_command {w : Word} (h : ∀ i, decode w ≠ .ok i) (s : State) :
    execWord w s = .next (s.recordError (BitVec.ofNat 8 w.toNat) .illegalCommand) := by
  cases hw : decode w with
  | ok i => exact absurd hw (h i)
  | error d => exact execWord_error hw s

/-- Settles O11: MBZ and OPC as quotient and remainder of the word say whether it is a command, and the one word of a
command is its encoding. -/
theorem decodingIsExact : Obligations.DecodingIsExact := fun w =>
  ⟨exists_decode_iff w, decode_eq_ok_iff_eq_encode w,
    fun _ h => opcField_of_decode h ▸ opcField_toNat w,
    decodeBytes_bytesOf w, execWord_of_not_command⟩

/-- Settles O10: the ten words are the encodings of the commands; 0x0A and 0xFF are reserved opcodes, and the last two
words have an MBZ bit set. -/
theorem opcodeMapDecodes : Obligations.OpcodeMapDecodes :=
  ⟨Encoding.nop.1, Encoding.init.1, Encoding.setb.1, Encoding.getb.1, Encoding.reduce.1, Encoding.seth.1,
    Encoding.geth.1, Encoding.rdbyte.1, Encoding.orbyte.1, Encoding.clrerr.1, rfl, rfl, rfl, rfl⟩

end Sys2Proof.Laws
end

section
/-! Host assembly: what its lines expand to, the operand they load, the values they read, and the numbers a hash is
written by (30_encoding.md R68 to R71; 10_state.md R34; 41_reduction.md R79). -/

namespace Sys2Proof.Laws

open Sys2Proof.Machine

/-! ### Hash numbers (30_encoding.md R68) -/

/-- A word written as a number into a 128-bit register is that register's low word. -/
theorem extractLsb'_ofNat_toNat (b : Word) : (BitVec.ofNat 128 b.toNat).extractLsb' 0 32 = b := by
  rw [BitVec.ofNat_toNat, BitVec.extractLsb'_setWidth_of_le (by decide), BitVec.extractLsb'_eq_self]

theorem hashBits_lt (m : HMode) (h : Int) : hashBits m h < 2 ^ 128 := by
  cases m with
  | u32 | s32 => exact (BitVec.isLt _).trans (by decide)
  | u128 | s128 => exact BitVec.isLt _

theorem toNat_ofInt_of_bounds {n : Nat} {h : Int} (h0 : 0 ≤ h) (hlt : h < 2 ^ n) :
    ((BitVec.ofInt n h).toNat : Int) = h := by
  rw [BitVec.toNat_ofInt, Int.toNat_of_nonneg (Int.emod_nonneg _ (by positivity)),
    Int.emod_eq_of_lt h0 (by exact_mod_cast hlt)]

/-- A mode reads back the number it was given: the bits of 32 or 128 that stand for it are the ones it looks at, and in
them its own numbers are told apart. -/
theorem hashValue_hashBits (m : HMode) {h : Int} (hr : hashInRange m h = true) :
    hashValue m (BitVec.ofNat 128 (hashBits m h)) = h := by
  cases m with
  | u32 =>
    obtain ⟨hlow, hhigh⟩ : 0 ≤ h ∧ h < 2 ^ 32 := by simpa [hashInRange] using hr
    rw [hashValue, hashBits, extractLsb'_ofNat_toNat, toNat_ofInt_of_bounds hlow hhigh]
  | s32 =>
    obtain ⟨hlow, hhigh⟩ : -(2 ^ 31) ≤ h ∧ h < 2 ^ 31 := by simpa [hashInRange] using hr
    rw [hashValue, hashBits, extractLsb'_ofNat_toNat, BitVec.toInt_ofInt_eq_self (by decide) hlow hhigh]
  | u128 =>
    obtain ⟨hlow, hhigh⟩ : 0 ≤ h ∧ h < 2 ^ 128 := by simpa [hashInRange] using hr
    rw [hashValue, hashBits, BitVec.ofNat_toNat, BitVec.setWidth_eq, toNat_ofInt_of_bounds hlow hhigh]
  | s128 =>
    obtain ⟨hlow, hhigh⟩ : -(2 ^ 127) ≤ h ∧ h < 2 ^ 127 := by simpa [hashInRange] using hr
    rw [hashValue, hashBits, BitVec.ofNat_toNat, BitVec.setWidth_eq,
      BitVec.toInt_ofInt_eq_self (by decide) hlow hhigh]

/-- Settles O37, mode by mode. -/
theorem hashNumberReadsBack : Obligations.HashNumberReadsBack := fun m h hr =>
  ⟨hashBits_lt m h, hashValue_hashBits m hr⟩

/-! ### LDOP and LDOP32 (30_encoding.md R69) -/

theorem wordOf_ofNat {v : Nat} (hv : v < 2 ^ 128) (k : Fin 4) :
    wordOf (BitVec.ofNat 128 v) k = BitVec.ofNat 32 (v / 2 ^ (32 * k.val)) := by
  rw [wordOf, BitVec.extractLsb', toNat_ofNat_quad hv, Nat.shiftRight_eq_div_pow]

theorem ldopEvents_eq {v : Nat} (hv : v < 2 ^ 128) :
    ldopEvents v =
      [write32 0x10 (BitVec.ofNat 32 v), write32 0x14 (BitVec.ofNat 32 (v / 2 ^ 32)),
       write32 0x18 (BitVec.ofNat 32 (v / 2 ^ 64)), write32 0x1C (BitVec.ofNat 32 (v / 2 ^ 96))] := by
  simp [ldopEvents, wordOf_ofNat hv]

/-- LDOP leaves its operand in OPERAND and answers its four writes. -/
theorem performAll_ldop (v : Nat) (s : State) :
    performAll (ldopEvents v) s =
      .next { s with operand := BitVec.ofNat 128 v, seen := s.seen ++ [.done, .done, .done, .done] } := by
  rw [ldopEvents, performAll_cons (perform_operand0 s _), performAll_cons (perform_operand1 _ _),
    performAll_cons (perform_operand2 _ _), performAll_single, perform_operand3]
  simp only [State.setOperand_operand, setWordOf_all]
  simp [State.respond, State.setOperand]

/-- Word 0 replaced leaves the bits above it (10_state.md R34). -/
theorem setWordOf_zero (x : Quad) (w : Word) : setWordOf x 0 w = x.extractLsb' 32 96 ++ w := by
  have hupper : x.extractLsb' 96 32 ++ x.extractLsb' 64 32 ++ x.extractLsb' 32 32 = x.extractLsb' 32 96 := by
    simp only [BitVec.extractLsb'_append_extractLsb'_eq_extractLsb']
  exact congrArg (· ++ w) hupper

/-- Settles O48: LDOP's words are quotients of its operand and make it up again; LDOP32 replaces word 0. -/
theorem ldopLoadsOperand : Obligations.LdopLoadsOperand := by
  refine ⟨fun _ hv => ldopEvents_eq hv, fun _ => rfl, fun s v _ => performAll_ldop v s, fun s v _ => ?_⟩
  rw [HostLine.expand, performAll_single, perform_operand0, setWordOf_zero]
  rfl

/-! ### The read lines (30_encoding.md R71) -/

theorem readReg_respond (r : Reg) (s : State) (a : Response) : readReg r (s.respond a) = readReg r s := by
  cases r with
  | wide x k => cases x <;> rfl
  | ctrl | status | cmd | data => rfl

/-- Reads of registers return their words, in order, and change nothing of the block (20_memory.md R54). -/
theorem performAll_reads (rs : List Reg) (s : State) :
    performAll (rs.map fun r => read32 r.offset) s =
      .next { s with seen := s.seen ++ rs.map fun r => .data (readReg r s) } := by
  induction rs generalizing s with
  | nil => simp [performAll]
  | cons r rs ih =>
    rw [List.map_cons, performAll_cons (perform_rd r s), ih]
    simp only [readReg_respond]
    simp [State.respond]

theorem rd128Value_wordOf (x : Quad) :
    rd128Value [.data (wordOf x 0), .data (wordOf x 1), .data (wordOf x 2), .data (wordOf x 3)] = some x :=
  congrArg some (quadOf_wordOf x)

/-- Settles O56: the reads return the words, whose assembly is the register's value, and bit 1 of STATUS is RESULT. -/
theorem readLinesGiveTheirValues : Obligations.ReadLinesGiveTheirValues :=
  ⟨fun _ => rfl, fun _ => rfl, rfl,
    fun r s => ⟨_, performAll_reads [r] s, rfl⟩,
    fun x s => ⟨_, performAll_reads [.wide x 0, .wide x 1, .wide x 2, .wide x 3] s, rd128Value_wordOf (x.get s)⟩,
    fun s => ⟨_, performAll_reads [.status] s, congrArg some (resultBit_statusWord s)⟩⟩

/-! ### The operand lines (30_encoding.md R70) -/

theorem op_wellFormed {i : Instr} (hi : WellFormed.takesOperand i = true) (v : Nat) :
    (HostLine.op i v).wellFormed = decide (v < 2 ^ 128) := by
  rw [HostLine.wellFormed, hi, Bool.true_and, WellFormed.quad]

theorem takesOperand_of_mem : ∀ i ∈ [Instr.init, .setb, .getb, .reduce, .seth, .geth, .rdbyte],
    WellFormed.takesOperand i = true := by
  decide

/-- Settles O57: each line's expansion is the definition's own, and the seven commands are those that take an
operand. -/
theorem operandLinesExpand : Obligations.OperandLinesExpand :=
  ⟨fun i v hi => ⟨op_wellFormed (takesOperand_of_mem i hi) v, rfl⟩, fun _ => rfl, fun _ _ => rfl, fun _ => ⟨rfl, rfl⟩,
    fun _ => rfl, rfl, rfl, rfl, rfl⟩

end Sys2Proof.Laws
end

section
/-! INIT, SETB, GETB, SETH and GETH on the bit array: what each answers under each of its conditions
(40_bitfield.md R73 to R75; 41_reduction.md R83, R84). -/

namespace Sys2Proof.Laws

open Sys2Proof.Machine

/-! ### A register written with its own number -/

theorem ofNat_toNat_quad (x : Quad) : BitVec.ofNat 128 x.toNat = x := by
  rw [BitVec.ofNat_toNat, BitVec.setWidth_eq]

theorem setIdx_toNat (s : State) (x : Quad) : s.setIdx x.toNat = { s with idx := x } := by
  rw [State.setIdx, ofNat_toNat_quad]

theorem configure_toNat (s : State) (x : Quad) :
    s.configure x.toNat =
      { s with size := x, bytes := BitVec.ofNat 128 (ceil8 x.toNat), cfg := true, result := false, idx := 0 } := by
  rw [State.configure, ofNat_toNat_quad]

/-! ### The error conditions of the bit commands -/

theorem errorOf_bit_index_of_le {s : State} {i : Instr} (hi : i = .setb ∨ i = .getb) (hc : s.cfg = true)
    (hk : s.size.toNat ≤ s.operand.toNat) : errorOf i s = some .indexOutOfRange := by
  rcases hi with rfl | rfl <;> simp [errorOf, hc, hk]

theorem errorOf_bit_index_of_lt {s : State} {i : Instr} (hi : i = .setb ∨ i = .getb) (hc : s.cfg = true)
    (hk : s.operand.toNat < s.size.toNat) : errorOf i s = none := by
  rcases hi with rfl | rfl <;> simp [errorOf, hc, hk]

theorem errorOf_hash_of_cfg {s : State} {i : Instr} (hi : i = .seth ∨ i = .geth) (hc : s.cfg = true) :
    errorOf i s = none := by
  rcases hi with rfl | rfl <;> simp [errorOf, hc]

/-! ### What they answer -/

theorem exec_init_of_le {s : State} (h1 : 1 ≤ s.operand.toNat) (hn : s.operand.toNat ≤ s.cap.toNat) :
    exec .init s = .next (inited s s.operand.toNat) :=
  exec_of_noError (errorOf_init_eq_none h1 hn)

section
variable {s : State}

theorem exec_setb_of_lt (h : s.Inv) (hc : s.cfg = true) (hk : s.operand.toNat < s.size.toNat) :
    exec .setb s =
      .next ((orred s (s.operand.toNat / 8) (bitMask s.operand.toNat)).setIdx s.operand.toNat) :=
  (exec_of_noError (errorOf_bit_index_of_lt (.inl rfl) hc hk)).trans (setBitOp_of_lt (index_byte h hc hk).2)

theorem exec_getb_of_lt (h : s.Inv) (hc : s.cfg = true) (hk : s.operand.toNat < s.size.toNat) :
    exec .getb s = .next ((s.setResult (s.bit s.operand.toNat)).setIdx s.operand.toNat) :=
  (exec_of_noError (errorOf_bit_index_of_lt (.inr rfl) hc hk)).trans (getBitOp_of_lt (index_byte h hc hk).2)

theorem exec_seth_of_cfg (h : s.Inv) (hc : s.cfg = true) :
    exec .seth s = .next ((orred s (hashIndex s / 8) (bitMask (hashIndex s))).setIdx (hashIndex s)) :=
  (exec_of_noError (errorOf_hash_of_cfg (.inl rfl) hc)).trans
    (setBitOp_of_lt (index_byte h hc (hashIndex_lt_size h hc)).2)

theorem exec_geth_of_cfg (h : s.Inv) (hc : s.cfg = true) :
    exec .geth s = .next ((s.setResult (s.bit (hashIndex s))).setIdx (hashIndex s)) :=
  (exec_of_noError (errorOf_hash_of_cfg (.inr rfl) hc)).trans
    (getBitOp_of_lt (index_byte h hc (hashIndex_lt_size h hc)).2)

end

/-- Settles O20: a size out of range is the one error of INIT, and a size in range is zero-filled and configured. -/
theorem initCreatesZeroArray : Obligations.InitCreatesZeroArray := by
  refine ⟨Encoding.init.1, fun s hn => exec_of_error (if_pos hn), fun s h1 hn => ?_⟩
  exact ⟨_, exec_init_of_le h1 hn, configure_toNat _ _, inited_bytes_toNat s hn, read_zeroFill s.array _⟩

/-- Settles O21: the byte of a valid index exists, and the mask of the index is ORed into it. -/
theorem setbSetsTheBit : Obligations.SetbSetsTheBit := by
  refine ⟨Encoding.setb.1, fun s hc => exec_of_error (errorOf_of_not_cfg hc (by decide)),
    fun s hc hk => exec_of_error (errorOf_bit_index_of_le (.inl rfl) hc hk), fun s h hc hk => ?_⟩
  refine ⟨_, exec_setb_of_lt h hc hk, setIdx_toNat _ _, fun a => ?_, bit_orred s _⟩
  rw [State.setIdx_array, State.setArray_array, read_write]
  split
  · next ha => rw [ha, bitMask]
  · rfl

/-- Settles O22: the byte of a valid index exists, and RESULT is its bit. -/
theorem getbReadsTheBit : Obligations.GetbReadsTheBit := by
  refine ⟨Encoding.getb.1, fun s hc => exec_of_error (errorOf_of_not_cfg hc (by decide)),
    fun s hc hk => exec_of_error (errorOf_bit_index_of_le (.inr rfl) hc hk), fun s h hc hk => ?_⟩
  rw [exec_getb_of_lt h hc hk, State.bit_eq, bitIn_eq_getLsbD, setIdx_toNat]
  rfl

end Sys2Proof.Laws
end

section
/-! No false negatives in the block: a bit that is 1 in a configured array stays a 1 of that array through every step of
the filter's lifetime (40_bitfield.md R76; 70_reset_and_hazards.md R124). -/

namespace Sys2Proof.Laws

open Sys2Proof.Machine

/-- Bit `n` is a bit of the configured array of `s`, and it is 1. -/
structure HoldsBit (s : State) (n : Nat) : Prop where
  inv : s.Inv
  cfg : s.cfg = true
  lt_size : n < s.size.toNat
  bit : s.bit n = true

/-! ### The bit is set -/

theorem holdsBit_orred_setIdx {s : State} (h : s.Inv) (hc : s.cfg = true) {n : Nat} (hn : n < s.size.toNat) :
    HoldsBit ((orred s (n / 8) (bitMask n)).setIdx n) n where
  inv := inv_setIdx (inv_orred h hc (index_byte h hc hn).1 _) hc hn
  cfg := hc
  lt_size := hn
  bit := (bit_orred s n n).trans (by simp)

theorem setIdx_idx_toNat {s : State} {n : Nat} (hn : n < s.size.toNat) (t : State) : (t.setIdx n).idx.toNat = n :=
  toNat_ofNat_quad (hn.trans s.size.isLt)

/-- SETB of a valid index and SETH leave the bit they set, at IDX (40_bitfield.md R74; 41_reduction.md R83). -/
theorem holdsBit_idx_of_set {s t : State} {i : Instr} (h : s.Inv) (hc : s.cfg = true)
    (hi : i = .setb ∧ s.operand.toNat < s.size.toNat ∨ i = .seth) (he : exec i s = .next t) :
    HoldsBit t t.idx.toNat := by
  have hset : ∃ n < s.size.toNat, t = (orred s (n / 8) (bitMask n)).setIdx n := by
    rcases hi with ⟨rfl, hn⟩ | rfl
    · rw [exec_setb_of_lt h hc hn, Host.Outcome.next.injEq] at he
      exact ⟨_, hn, he.symm⟩
    · rw [exec_seth_of_cfg h hc, Host.Outcome.next.injEq] at he
      exact ⟨_, hashIndex_lt_size h hc, he.symm⟩
  obtain ⟨n, hn, rfl⟩ := hset
  rw [setIdx_idx_toNat hn]
  exact holdsBit_orred_setIdx h hc hn

/-! ### The bit stays -/

/-- Within a lifetime a step leaves CFG and SIZE: only reset and an INIT that succeeds write them. -/
theorem step_cfg_size {s t : State} (hlife : s.endsLifetime = false) (hs : step s = .next t) :
    t.cfg = s.cfg ∧ t.size = s.size := by
  cases step_case hs with
  | quiet ht =>
    rw [ht]
    exact ⟨rfl, rfl⟩
  | @command w rest i _ hh hw he =>
    by_cases hi : i = .init
    · have hfails := init_fails_of_not_endsLifetime hlife hh hw hi
      subst hi
      cases he with
      | failed => simp
      | init h1 hn => exact absurd (errorOf_init_eq_none h1 hn) hfails
    · obtain ⟨hsize, -, hcfg⟩ := he.configuration hi
      exact ⟨hcfg, hsize⟩
  | illegal => simp
  | reset hh => simp [endsLifetime_reset hh] at hlife

theorem HoldsBit.step {s t : State} {n : Nat} (h : HoldsBit s n) (hlife : s.endsLifetime = false)
    (hs : step s = .next t) : HoldsBit t n := by
  obtain ⟨hcfg, hsize⟩ := step_cfg_size hlife hs
  exact {
    inv := step_inv h.inv hs
    cfg := hcfg.trans h.cfg
    lt_size := hsize ▸ h.lt_size
    bit := (bitsAreOnlySet s t hlife hs).1 n h.bit }

theorem HoldsBit.runSteps {s u : State} {n k : Nat} (h : HoldsBit s n) (hlife : s.withinLifetime k)
    (hr : runSteps k s = .next u) : HoldsBit u n := by
  induction k generalizing s with
  | zero =>
    rw [Machine.runSteps, Host.Outcome.next.injEq] at hr
    exact hr ▸ h
  | succ k ih =>
    obtain ⟨hends, hnext⟩ := hlife
    obtain ⟨t, hs, hr⟩ := runSteps_succ_next hr
    exact ih (h.step hends hs) (hnext t hs) hr

/-! ### The bit is read -/

theorem HoldsBit.getb {s : State} (h : HoldsBit s s.operand.toNat) :
    ∃ t, exec .getb s = .next t ∧ t.result = true :=
  ⟨_, exec_getb_of_lt h.inv h.cfg h.lt_size, h.bit⟩

theorem HoldsBit.geth {s : State} (h : HoldsBit s (hashIndex s)) : ∃ t, exec .geth s = .next t ∧ t.result = true :=
  ⟨_, exec_geth_of_cfg h.inv h.cfg, h.bit⟩

/-- The bits a state holds do not depend on OPERAND. -/
theorem HoldsBit.with_operand {s : State} {n : Nat} (h : HoldsBit s n) (x : Quad) :
    HoldsBit { s with operand := x } n :=
  ⟨h.inv, h.cfg, h.lt_size, h.bit⟩

/-- Settles O50: the command sets the bit at IDX, each step of the lifetime keeps it, and GETB and GETH read it. -/
theorem noFalseNegatives : Obligations.NoFalseNegatives := by
  intro s t u i k h hc hi he hlife hr
  have hu : HoldsBit u t.idx.toNat := (holdsBit_idx_of_set h hc hi he).runSteps hlife hr
  exact ⟨(hu.with_operand t.idx).getb, fun hidx => HoldsBit.geth (hidx ▸ hu)⟩

end Sys2Proof.Laws
end

section
/-! No false negatives at the host: `add` sets the bit of every hash and `lookup` finds them set
(70_reset_and_hazards.md R120, R121). -/

namespace Sys2Proof.Laws

open Sys2Proof.Machine

/-! ### A line with an operand -/

/-- The state the command of a line with operand `v` starts from: LDOP done, the CMD write answered. -/
def loaded (s : State) (v : Nat) : State :=
  ({ s with operand := BitVec.ofNat 128 v, seen := s.seen ++ [.done, .done, .done, .done] } : State).respond .done

theorem performAll_op (i : Instr) (v : Nat) (s : State) :
    performAll (HostLine.op i v).expand s = exec i (loaded s v) := by
  rw [HostLine.expand, performAll_append (performAll_ldop v s), performAll_single, perform_command,
    execWord_ok (encoding_statement i).1, loaded]

theorem transcript_append (ls ls' : List HostLine) : transcript (ls ++ ls') = transcript ls ++ transcript ls' :=
  List.flatMap_append

/-- The state after the host has read STATUS. -/
def statusRead (s : State) : State := s.respond (.data (statusWord s))

theorem performAll_status (s : State) : performAll (transcript [.rd .status]) s = .next (statusRead s) :=
  (performAll_single _ s).trans (perform_rd .status s)

theorem performAll_op_status {i : Instr} {v : Nat} {s t : State} (h : exec i (loaded s v) = .next t) :
    performAll (transcript [.op i v, .rd .status]) s = .next (statusRead t) := by
  rw [transcript_cons, performAll_append ((performAll_op i v s).trans h), performAll_status]

/-! ### The filter grows -/

/-- The index a hash number of the host is reduced to. -/
def indexOf (s : State) (h : Nat) : Nat := red (BitVec.ofNat 128 h) s.hmode s.size.toNat

theorem hashIndex_loaded (s : State) (h : Nat) : hashIndex (loaded s h) = indexOf s h := rfl

/-- The configured filter of `t` has the mode, size and error flag of that of `s`, and every bit that is set there. -/
structure Extends (s t : State) : Prop where
  inv : t.Inv
  cfg : t.cfg = true
  hmode : t.hmode = s.hmode
  size : t.size = s.size
  err : t.err = s.err
  bit : ∀ n, s.bit n = true → t.bit n = true

theorem extends_refl {s : State} (h : s.Inv) (hc : s.cfg = true) : Extends s s :=
  ⟨h, hc, rfl, rfl, rfl, fun _ => id⟩

theorem Extends.trans {s t u : State} (h : Extends s t) (h' : Extends t u) : Extends s u :=
  ⟨h'.inv, h'.cfg, h'.hmode.trans h.hmode, h'.size.trans h.size, h'.err.trans h.err,
    fun n hn => h'.bit n (h.bit n hn)⟩

theorem Extends.statusRead {s t : State} (h : Extends s t) : Extends s (statusRead t) :=
  ⟨h.inv, h.cfg, h.hmode, h.size, h.err, h.bit⟩

/-- The bit of the hash number `h` is 1. -/
abbrev HasHash (s : State) (h : Nat) : Prop := s.bit (indexOf s h) = true

theorem HasHash.of_extends {s t : State} {h : Nat} (hh : HasHash s h) (he : Extends s t) : HasHash t h := by
  rw [HasHash, indexOf, he.hmode, he.size]
  exact he.bit _ hh

section
variable {s : State}

theorem indexOf_lt_size (hs : s.Inv) (hc : s.cfg = true) (h : Nat) : indexOf s h < s.size.toNat :=
  hashIndex_lt_size (s := loaded s h) hs hc

/-! ### `add` -/

theorem performAll_seth (hs : s.Inv) (hc : s.cfg = true) (h : Nat) :
    ∃ t, performAll (HostLine.op .seth h).expand s = .next t ∧ Extends s t ∧ HasHash t h := by
  have hset := holdsBit_orred_setIdx (s := loaded s h) hs hc (indexOf_lt_size hs hc h)
  exact ⟨_, (performAll_op .seth h s).trans (exec_seth_of_cfg (s := loaded s h) hs hc),
    ⟨hset.inv, hset.cfg, rfl, rfl, rfl, fun n => bit_orred_mono (s := loaded s h) _ _⟩, hset.bit⟩

/-- SETH of each hash in turn: a later one clears no bit that an earlier one has set. -/
theorem performAll_seths (hs : s.Inv) (hc : s.cfg = true) (hashes : List Nat) :
    ∃ t, performAll (transcript (hashes.map (HostLine.op .seth))) s = .next t ∧ Extends s t ∧
      ∀ h ∈ hashes, HasHash t h := by
  induction hashes generalizing s with
  | nil => exact ⟨s, rfl, extends_refl hs hc, nofun⟩
  | cons h hashes ih =>
    obtain ⟨t, hp, hext, hhas⟩ := performAll_seth hs hc h
    obtain ⟨u, hp', hext', hhas'⟩ := ih hext.inv hext.cfg
    refine ⟨u, ?_, hext.trans hext', List.forall_mem_cons.2 ⟨hhas.of_extends hext', hhas'⟩⟩
    rw [List.map_cons, transcript_cons, performAll_append hp, hp']

theorem performAll_add (hs : s.Inv) (hc : s.cfg = true) (hashes : List Nat) :
    ∃ t, performAll (transcript (addLines hashes)) s = .next t ∧ Extends s t ∧ ∀ h ∈ hashes, HasHash t h := by
  obtain ⟨t, hp, hext, hhas⟩ := performAll_seths hs hc hashes
  refine ⟨statusRead t, ?_, hext.statusRead, hhas⟩
  rw [addLines, transcript_append, performAll_append hp, performAll_status]

/-! ### `lookup` -/

/-- One hash of `lookup`: its GETH answers with no error, and its bit says whether `lookup` goes on. -/
theorem lookup_cons {t : State} {h : Nat} (he : exec .geth (loaded s h) = .next t) (herr : t.err = false)
    (hashes : List Nat) :
    lookup (h :: hashes) s = if t.result then lookup hashes (statusRead t) else .absent (statusRead t) := by
  rw [lookup, performAll_op_status he]
  simp only [statusRead, State.respond_seen, List.getLast?_concat, statusWord_err, herr, resultBit_statusWord,
    Bool.false_eq_true, if_false]

/-- The state in which `lookup` has read the bit of the hash number `h`. -/
def looked (s : State) (h : Nat) : State :=
  statusRead (((loaded s h).setResult (s.bit (indexOf s h))).setIdx (indexOf s h))

theorem extends_looked (hs : s.Inv) (hc : s.cfg = true) (h : Nat) : Extends s (looked s h) where
  inv := inv_setIdx (inv_setResult (s := loaded s h) hs hc _) hc (indexOf_lt_size hs hc h)
  cfg := hc
  hmode := rfl
  size := rfl
  err := rfl
  bit _ := id

theorem lookup_cons_eq (hs : s.Inv) (hc : s.cfg = true) (herr : s.err = false) (h : Nat) (hashes : List Nat) :
    lookup (h :: hashes) s =
      if s.bit (indexOf s h) then lookup hashes (looked s h) else .absent (looked s h) :=
  lookup_cons (exec_geth_of_cfg (s := loaded s h) hs hc) herr hashes

theorem lookup_of_hasHash (hs : s.Inv) (hc : s.cfg = true) (herr : s.err = false) {hashes : List Nat}
    (hhas : ∀ h ∈ hashes, HasHash s h) : ∃ t, lookup hashes s = .present t := by
  induction hashes generalizing s with
  | nil => exact ⟨s, rfl⟩
  | cons h hashes ih =>
    obtain ⟨hfirst, hrest⟩ := List.forall_mem_cons.1 hhas
    have hext := extends_looked hs hc h
    rw [lookup_cons_eq hs hc herr, if_pos hfirst]
    exact ih hext.inv hext.cfg (hext.err.trans herr) fun g hg => (hrest g hg).of_extends hext

end

/-- Settles O52: after `add` every hash has its bit set and no error is recorded, so `lookup` reads 1 for each. -/
theorem lookupAfterAddIsPresent : Obligations.LookupAfterAddIsPresent := by
  intro s t hashes hs hc herr hp
  obtain ⟨u, hu, hext, hhas⟩ := performAll_add hs hc hashes
  rw [hu, Host.Outcome.next.injEq] at hp
  subst hp
  exact lookup_of_hasHash hext.inv hext.cfg (hext.err.trans herr) hhas

end Sys2Proof.Laws
end

section
/-! The reduction as arithmetic: what each mode reads of OPERAND, and the laws of the floor modulo
(41_reduction.md R79 to R81, R86). -/

namespace Sys2Proof.Laws

open Sys2Proof.Machine

/-! ### The four readings of OPERAND -/

theorem lowWord_toNat (x : Quad) : (x.extractLsb' 0 32).toNat = x.toNat % 2 ^ 32 := by
  rw [BitVec.extractLsb'_toNat, Nat.shiftRight_zero]

theorem hashValue_u32 (x : Quad) : hashValue .u32 x = ((x.toNat % 2 ^ 32 : Nat) : Int) := by
  rw [hashValue, lowWord_toNat]

theorem hashValue_s32 (x : Quad) :
    hashValue .s32 x =
      if x.toNat % 2 ^ 32 < 2 ^ 31 then ((x.toNat % 2 ^ 32 : Nat) : Int)
      else ((x.toNat % 2 ^ 32 : Nat) : Int) - 2 ^ 32 := by
  rw [hashValue, BitVec.toInt_eq_toNat_cond, lowWord_toNat]
  split <;> split <;> omega

theorem hashValue_u128 (x : Quad) : hashValue .u128 x = (x.toNat : Int) := rfl

theorem hashValue_s128 (x : Quad) :
    hashValue .s128 x = if x.toNat < 2 ^ 127 then (x.toNat : Int) else (x.toNat : Int) - 2 ^ 128 := by
  rw [hashValue, BitVec.toInt_eq_toNat_cond]
  split <;> split <;> omega

/-- Settles O33: floor modulo by a positive size is the non-negative remainder, here of each mode's reading. -/
theorem reductionIsFloorModulo : Obligations.ReductionIsFloorModulo := by
  intro x n hn
  refine ⟨?_, ?_, ?_, ?_⟩
  · rw [red_eq_emod x .u32 hn, hashValue_u32]
  · rw [red_eq_emod x .s32 hn, hashValue_s32]
  · rw [red_eq_emod x .u128 hn, hashValue_u128]
  · rw [red_eq_emod x .s128 hn, hashValue_s128]

/-! ### The index depends on the reading alone -/

theorem red_congr {x y : Quad} {m m' : HMode} (h : hashValue m x = hashValue m' y) (n : Nat) :
    red x m n = red y m' n := by
  rw [red, red, h]

/-- Settles O35: U32 and S32 read the low word only. -/
theorem reductionIgnoresUpperBits : Obligations.ReductionIgnoresUpperBits := by
  intro x y n h
  have hu32 : hashValue .u32 x = hashValue .u32 y := by rw [hashValue, hashValue, h]
  have hs32 : hashValue .s32 x = hashValue .s32 y := by rw [hashValue, hashValue, h]
  exact ⟨red_congr hu32 n, red_congr hs32 n⟩

/-- Two readings reduce to the same index when the size divides their difference, and only then. -/
theorem red_eq_red_iff (x y : Quad) (m m' : HMode) {n : Nat} (hn : 1 ≤ n) :
    red x m n = red y m' n ↔ (n : Int) ∣ hashValue m x - hashValue m' y := by
  rw [← Int.natCast_inj, red_eq_emod x m hn, red_eq_emod y m' hn, Int.emod_eq_emod_iff_emod_sub_eq_zero,
    Int.dvd_iff_emod_eq_zero]

/-! ### Bit 31: U32 and S32 -/

theorem getLsbD_31_eq (x : Quad) : x.getLsbD 31 = decide (2 ^ 31 ≤ x.toNat % 2 ^ 32) := by
  rw [← BitVec.testBit_toNat, Nat.testBit_eq_decide_div_mod_eq, decide_eq_decide]
  omega

theorem hashValue_s32_of_nonneg {x : Quad} (h : x.getLsbD 31 = false) : hashValue .s32 x = hashValue .u32 x := by
  rw [getLsbD_31_eq, decide_eq_false_iff_not] at h
  rw [hashValue_s32, hashValue_u32, if_pos (Nat.lt_of_not_le h)]

theorem hashValue_s32_of_neg {x : Quad} (h : x.getLsbD 31 = true) :
    hashValue .s32 x = hashValue .u32 x - 2 ^ 32 := by
  rw [getLsbD_31_eq, decide_eq_true_iff] at h
  rw [hashValue_s32, hashValue_u32, if_neg (Nat.not_lt_of_le h)]

/-- Of a negative S32 hash, the two modes' readings differ by `2^32`. -/
theorem red_s32_eq_red_u32_iff {x : Quad} (h : x.getLsbD 31 = true) {n : Nat} (hn : 1 ≤ n) :
    red x .s32 n = red x .u32 n ↔ 2 ^ 32 % n = 0 := by
  rw [red_eq_red_iff x x _ _ hn, hashValue_s32_of_neg h, sub_sub_cancel_left, Int.dvd_neg, ← Nat.dvd_iff_mod_eq_zero]
  exact_mod_cast Iff.rfl

/-! ### A size that is a power of two -/

/-- How many bits of OPERAND a mode reads. -/
def hashWidth : HMode → Nat
  | .u32 | .s32 => 32
  | .u128 | .s128 => 128

/-- Signed or not, a mode's reading is OPERAND modulo two to the number of bits it reads. -/
theorem hashValue_emod_two_pow (x : Quad) (m : HMode) :
    hashValue m x % ((2 ^ hashWidth m : Nat) : Int) = (x.toNat : Int) % ((2 ^ hashWidth m : Nat) : Int) := by
  cases m with
  | u32 =>
    rw [hashValue_u32, hashWidth]
    omega
  | s32 =>
    rw [hashValue_s32, hashWidth]
    split <;> omega
  | u128 => rfl
  | s128 =>
    rw [hashValue_s128, hashWidth]
    split <;> omega

theorem red_two_pow (x : Quad) (m : HMode) {k : Nat} (hk : k ≤ hashWidth m) : red x m (2 ^ k) = x.toNat % 2 ^ k := by
  have hdvd : ((2 ^ k : Nat) : Int) ∣ ((2 ^ hashWidth m : Nat) : Int) := Int.natCast_dvd_natCast.2 (pow_dvd_pow 2 hk)
  have hred : (red x m (2 ^ k) : Int) = ((x.toNat % 2 ^ k : Nat) : Int) :=
    calc (red x m (2 ^ k) : Int)
      _ = hashValue m x % ((2 ^ k : Nat) : Int) := red_eq_emod x m Nat.one_le_two_pow
      _ = (x.toNat : Int) % ((2 ^ k : Nat) : Int) := by
        rw [← Int.emod_emod_of_dvd _ hdvd, hashValue_emod_two_pow, Int.emod_emod_of_dvd _ hdvd]
      _ = ((x.toNat % 2 ^ k : Nat) : Int) := (Int.natCast_emod _ _).symm
  exact_mod_cast hred

/-- Settles O36: each law is what the readings of the modes are, or are modulo the size. -/
theorem reductionLawsHold : Obligations.ReductionLawsHold := by
  refine ⟨fun x m => ?one, fun x n _ hx => ?u128, fun x n _ h => red_congr (hashValue_s32_of_nonneg h) n,
    fun x n hn h => ⟨?neg, red_s32_eq_red_u32_iff h hn⟩, fun x k hk => ⟨red_two_pow x .u32 hk, red_two_pow x .s32 hk⟩,
    fun x k hk => ⟨red_two_pow x .u128 hk, red_two_pow x .s128 hk⟩, by decide, by decide⟩
  case one => exact Nat.lt_one_iff.1 (red_lt x m le_rfl)
  case u128 => exact red_congr (by rw [hashValue_u32, hashValue_u128, Nat.mod_eq_of_lt hx]) n
  case neg => rw [red_eq_emod x .s32 hn, hashValue_s32_of_neg h, hashValue_u32]

end Sys2Proof.Laws
end

section
/-! REDUCE, SETH and GETH: what each answers under each of its conditions, and the two fused commands as REDUCE and a bit
command (41_reduction.md R80, R82 to R85). -/

namespace Sys2Proof.Laws

open Sys2Proof.Machine

/-! ### The index and the byte written -/

section
variable {s : State}

theorem exec_reduce_of_cfg (hc : s.cfg = true) : exec .reduce s = .next (s.setIdx (hashIndex s)) :=
  whenConfigured_of_cfg hc _ _

/-- IDX after a reduction, whatever else the command has written. -/
theorem setIdx_hashIndex_toNat (h : 1 ≤ s.size.toNat) (t : State) :
    ((t.setIdx (hashIndex s)).idx.toNat : Int) = hashValue s.hmode s.operand % (s.size.toNat : Int) := by
  rw [setIdx_idx_toNat (hashIndex_lt h)]
  exact red_eq_emod s.operand s.hmode h

end

theorem read_orred_bitMask (s : State) (i a : Nat) :
    (orred s (i / 8) (bitMask i)).array.read a =
      if a = i / 8 then s.array.read a ||| (1#8 <<< (i % 8)) else s.array.read a := by
  rw [State.setArray_array, read_write]
  split
  · next ha => rw [ha, bitMask]
  · rfl

/-- Settles O23: IDX alone is written, with an index below SIZE, which fits in it. -/
theorem reduceWritesTheIndex : Obligations.ReduceWritesTheIndex := by
  refine ⟨Encoding.reduce.1, fun s hc => exec_of_error (errorOf_of_not_cfg hc (by decide)), fun s hc hs => ?_⟩
  exact ⟨_, exec_reduce_of_cfg hc, rfl, setIdx_hashIndex_toNat hs s⟩

/-- Settles O24: the byte of the reduced index exists, and the mask of the index is ORed into it. -/
theorem sethSetsTheReducedBit : Obligations.SethSetsTheReducedBit := by
  refine ⟨Encoding.seth.1, fun s hc => exec_of_error (errorOf_of_not_cfg hc (by decide)), fun s h hc => ?_⟩
  refine ⟨_, exec_seth_of_cfg h hc, rfl, setIdx_hashIndex_toNat (Nat.one_le_of_lt (hashIndex_lt_size h hc)) _, ?_⟩
  rw [setIdx_idx_toNat (hashIndex_lt_size h hc)]
  exact ⟨read_orred_bitMask s _, bit_orred s _⟩

/-- Settles O25: the byte of the reduced index exists, and RESULT is its bit. -/
theorem gethReadsTheReducedBit : Obligations.GethReadsTheReducedBit := by
  refine ⟨Encoding.geth.1, fun s hc => exec_of_error (errorOf_of_not_cfg hc (by decide)), fun s h hc => ?_⟩
  refine ⟨_, exec_geth_of_cfg h hc, rfl, setIdx_hashIndex_toNat (Nat.one_le_of_lt (hashIndex_lt_size h hc)) _, ?_⟩
  rw [setIdx_idx_toNat (hashIndex_lt_size h hc)]
  exact bitIn_eq_getLsbD _ _

/-! ### No index out of range -/

/-- The code a command leaves in the record is the one that stood there or its own error, unless it is CLRERR
(60_exceptions.md R97). -/
theorem Effect.errcode_eq_or {s t : State} {i : Instr} (he : Effect s i t) (hi : i ≠ .clrerr) :
    t.errcode = s.errcode ∨ errorOf i s = some t.errcode := by
  cases he with
  | clrerr => contradiction
  | failed hc =>
    rw [State.recordError_errcode]
    split
    · exact .inl rfl
    · exact .inr hc
  | _ => exact .inl rfl

theorem errorOf_reduction {i : Instr} (hi : i ∈ [Instr.reduce, .seth, .geth]) (s : State) :
    errorOf i s = if s.cfg = false then some .notConfigured else none := by
  cases i with
  | reduce | seth | geth => rfl
  | _ => simp at hi

/-- Settles O34: a remainder is below its divisor, and the one error of the three commands is NotConfigured. -/
theorem reducedIndexIsInRange : Obligations.ReducedIndexIsInRange := by
  refine ⟨fun x m n hn => Nat.le_sub_one_of_lt (red_lt x m hn), fun i s t hi he hcode => ?_⟩
  have hclrerr : i ≠ .clrerr := ne_of_mem_of_not_mem hi (by decide)
  rcases (exec_effect he).errcode_eq_or hclrerr with hkept | hown
  · rw [← hkept, hcode]
  · rw [errorOf_reduction hi, hcode] at hown
    split at hown <;> cases hown

/-! ### The fused commands -/

/-- The state in which the host has run REDUCE and written IDX back to OPERAND. -/
def reduced (s : State) : State := { s.setIdx (hashIndex s) with operand := (s.setIdx (hashIndex s)).idx }

section
variable {s : State} (h : s.Inv) (hc : s.cfg = true)
include h hc

theorem reduced_operand_toNat : (reduced s).operand.toNat = hashIndex s := setIdx_idx_toNat (hashIndex_lt_size h hc) s

theorem reduced_operand_lt_size : (reduced s).operand.toNat < (reduced s).size.toNat :=
  (reduced_operand_toNat h hc).trans_lt (hashIndex_lt_size h hc)

theorem inv_reduced : (reduced s).Inv := inv_setIdx h hc (hashIndex_lt_size h hc)

theorem exec_setb_reduced :
    exec .setb (reduced s) =
      .next ((orred (reduced s) (hashIndex s / 8) (bitMask (hashIndex s))).setIdx (hashIndex s)) := by
  rw [exec_setb_of_lt (inv_reduced h hc) hc (reduced_operand_lt_size h hc), reduced_operand_toNat h hc]

theorem exec_getb_reduced :
    exec .getb (reduced s) = .next (((reduced s).setResult (s.bit (hashIndex s))).setIdx (hashIndex s)) := by
  rw [exec_getb_of_lt (inv_reduced h hc) hc (reduced_operand_lt_size h hc), reduced_operand_toNat h hc]
  rfl

end

/-- Settles O32: the bit command finds the reduced index in OPERAND, so that it does to the same bit what the fused
command does. -/
theorem fusedCommandsAreReduceThenBit : Obligations.FusedCommandsAreReduceThenBit := fun s h hc =>
  ⟨s.setIdx (hashIndex s), _, _, _, _, exec_reduce_of_cfg hc, exec_setb_reduced h hc, exec_seth_of_cfg h hc, rfl,
    exec_getb_reduced h hc, exec_geth_of_cfg h hc, rfl⟩

end Sys2Proof.Laws
end

section
/-! RDBYTE and ORBYTE: what each answers under each of its conditions (42_byte_access.md R87, R88). -/

namespace Sys2Proof.Laws

open Sys2Proof.Machine

/-! ### The error condition of the byte commands -/

theorem errorOf_byte_index_of_le {s : State} {i : Instr} (hi : i = .rdbyte ∨ i = .orbyte) (hc : s.cfg = true)
    (hj : s.bytes.toNat ≤ s.operand.toNat) : errorOf i s = some .indexOutOfRange := by
  rcases hi with rfl | rfl <;> simp [errorOf, hc, hj]

theorem errorOf_byte_index_of_lt {s : State} {i : Instr} (hi : i = .rdbyte ∨ i = .orbyte) (hc : s.cfg = true)
    (hj : s.operand.toNat < s.bytes.toNat) : errorOf i s = none := by
  rcases hi with rfl | rfl <;> simp [errorOf, hc, hj]

/-! ### What they answer -/

section
variable {s : State}

/-- The sizes of a configured array (10_state.md R39). -/
theorem sizes_of_cfg (h : s.Inv) (hc : s.cfg = true) :
    1 ≤ s.size.toNat ∧ s.bytes.toNat = ceil8 s.size.toNat ∧ s.bytes.toNat ≤ s.nbytesMax := by
  obtain ⟨-, ⟨hsizes, -⟩, -⟩ := h
  obtain ⟨h1, -, hbytes, hmax⟩ := hsizes hc
  exact ⟨h1, hbytes, hmax⟩

/-- A byte of a configured array exists. -/
theorem lt_nbytesMax_of_lt_bytes (h : s.Inv) (hc : s.cfg = true) {j : Nat} (hj : j < s.bytes.toNat) :
    j < s.nbytesMax := by
  obtain ⟨-, -, hmax⟩ := sizes_of_cfg h hc
  exact hj.trans_le hmax

theorem exec_rdbyte_of_lt (h : s.Inv) (hc : s.cfg = true) (hj : s.operand.toNat < s.bytes.toNat) :
    exec .rdbyte s = .next (s.setData (s.array.read s.operand.toNat)) :=
  (exec_of_noError (errorOf_byte_index_of_lt (.inl rfl) hc hj)).trans
    (memRead_of_lt (lt_nbytesMax_of_lt_bytes h hc hj) fun b => .next (s.setData b))

theorem exec_orbyte_of_lt (h : s.Inv) (hc : s.cfg = true) (hj : s.operand.toNat < s.bytes.toNat) :
    exec .orbyte s = .next (orred s s.operand.toNat s.data) :=
  (exec_of_noError (errorOf_byte_index_of_lt (.inr rfl) hc hj)).trans
    (orIntoByte_of_lt (lt_nbytesMax_of_lt_bytes h hc hj) _ _)

end

theorem read_orred (s : State) (j : Nat) (v : Byte) (a : Nat) :
    (orred s j v).array.read a = if a = j then s.array.read a ||| v else s.array.read a := by
  rw [State.setArray_array, read_write]
  split
  · next ha => rw [ha]
  · rfl

/-- Settles O26: the byte of an index below BYTES exists, and DATA alone is written. -/
theorem rdbyteReadsTheByte : Obligations.RdbyteReadsTheByte :=
  ⟨Encoding.rdbyte.1, fun _ hc => exec_of_error (errorOf_of_not_cfg hc (by decide)),
    fun _ hc hj => exec_of_error (errorOf_byte_index_of_le (.inl rfl) hc hj), fun _ => exec_rdbyte_of_lt⟩

/-- Settles O27: the byte of an index below BYTES exists, and the array alone is written. -/
theorem orbyteOrsTheByte : Obligations.OrbyteOrsTheByte :=
  ⟨Encoding.orbyte.1, fun _ hc => exec_of_error (errorOf_of_not_cfg hc (by decide)),
    fun _ hc hj => exec_of_error (errorOf_byte_index_of_le (.inr rfl) hc hj),
    fun s h hc hj => ⟨_, exec_orbyte_of_lt h hc hj, rfl, read_orred s _ _⟩⟩

end Sys2Proof.Laws
end

section
/-! INIT and the fill of `load`: ORBYTE of every byte leaves those bytes, and RDBYTE reads them back
(42_byte_access.md R89). -/

namespace Sys2Proof.Laws

open Sys2Proof.Machine

/-! ### The lines of the fill -/

/-- A byte written to DATA or read from it as a word is the word's low byte (10_state.md R28). -/
theorem extractLsb'_setWidth_byte (b : Byte) : (b.setWidth 32).extractLsb' 0 8 = b := by
  rw [BitVec.extractLsb'_setWidth_of_le (by decide), BitVec.extractLsb'_eq_self]

/-- The state the command of `ORBYTE j, b` starts from: LDDATA and LDOP done, the CMD write answered. -/
def byteLoaded (s : State) (j : Nat) (b : Byte) : State := loaded ((s.respond .done).setData b) j

theorem performAll_orbyte (j : Nat) (b : Byte) (s : State) :
    performAll (HostLine.orbyte j b.toNat).expand s = exec .orbyte (byteLoaded s j b) := by
  rw [HostLine.expand, performAll_cons (perform_dataWrite s _), BitVec.ofNat_toNat, extractLsb'_setWidth_byte]
  exact performAll_op .orbyte j _

theorem performAll_orbyte_of_lt {s : State} (h : s.Inv) (hc : s.cfg = true) {j : Nat} (hj : j < s.bytes.toNat)
    (b : Byte) : performAll (HostLine.orbyte j b.toNat).expand s = .next (orred (byteLoaded s j b) j b) := by
  have hoperand : (byteLoaded s j b).operand.toNat = j := toNat_ofNat_quad (hj.trans s.bytes.isLt)
  rw [performAll_orbyte, exec_orbyte_of_lt (s := byteLoaded s j b) h hc (hoperand.trans_lt hj), hoperand]
  rfl

theorem transcript_concat (ls : List HostLine) (l : HostLine) :
    transcript (ls ++ [l]) = transcript ls ++ l.expand := by
  rw [transcript_append, transcript, transcript, List.flatMap_singleton]

theorem fillLines_concat (bs : List Byte) (b : Byte) :
    fillLines (bs ++ [b]) = fillLines bs ++ [.orbyte bs.length b.toNat] :=
  List.mapIdx_concat

/-! ### The fill -/

/-- `t` is the block `s` after the host has ORed the bytes `bs` into its array, from byte 0 on. -/
structure Filled (s : State) (bs : List Byte) (t : State) : Prop where
  inv : t.Inv
  frame : t = { s with data := t.data, operand := t.operand, array := t.array, seen := t.seen }
  read : ∀ a, t.array.read a = s.array.read a ||| bs.getD a 0#8

section
variable {s t : State} {bs : List Byte}

theorem Filled.cfg_eq (h : Filled s bs t) : t.cfg = s.cfg := by rw [h.frame]
theorem Filled.size_eq (h : Filled s bs t) : t.size = s.size := by rw [h.frame]
theorem Filled.bytes_eq (h : Filled s bs t) : t.bytes = s.bytes := by rw [h.frame]

theorem Filled.record (h : Filled s bs t) : SameRecord s t := by
  rw [h.frame]
  exact ⟨rfl, rfl, rfl⟩

theorem filled_nil (h : s.Inv) : Filled s [] s := ⟨h, rfl, fun _ => BitVec.or_zero.symm⟩

theorem getD_concat (bs : List Byte) (b : Byte) (a : Nat) :
    (bs ++ [b]).getD a 0#8 = if a = bs.length then b else bs.getD a 0#8 := by
  rcases Nat.lt_trichotomy a bs.length with hlt | rfl | hgt
  · rw [List.getD_append _ _ _ _ hlt, if_neg hlt.ne]
  · rw [List.getD_append_right _ _ _ _ le_rfl, Nat.sub_self, List.getD_cons_zero, if_pos rfl]
  · rw [if_neg hgt.ne', List.getD_eq_default _ _ hgt.le, List.getD_eq_default _ _ (by simpa using hgt)]

/-- One byte more: the ORBYTE of the next index. -/
theorem Filled.orbyte (h : Filled s bs t) (hc : s.cfg = true) (hlt : bs.length < s.bytes.toNat) (b : Byte) :
    Filled s (bs ++ [b]) (orred (byteLoaded t bs.length b) bs.length b) where
  inv := inv_orred (s := byteLoaded t bs.length b) h.inv (h.cfg_eq.trans hc) (h.bytes_eq ▸ hlt) b
  frame := by
    rw [h.frame]
    rfl
  read a := by
    have ht : (byteLoaded t bs.length b).array.read a = s.array.read a ||| bs.getD a 0#8 := h.read a
    rw [read_orred, getD_concat, ht]
    split
    · next ha => rw [List.getD_eq_default _ _ ha.ge, BitVec.or_zero]
    · rfl

/-- The lines of the fill in turn: each ORs its byte into a byte of the array. -/
theorem performAll_fillLines (h : s.Inv) (hc : s.cfg = true) (hlen : bs.length ≤ s.bytes.toNat) :
    ∃ t, performAll (transcript (fillLines bs)) s = .next t ∧ Filled s bs t := by
  induction bs using List.reverseRecOn with
  | nil => exact ⟨s, rfl, filled_nil h⟩
  | append_singleton bs b ih =>
    rw [List.length_append, List.length_singleton] at hlen
    obtain ⟨t, hp, ht⟩ := ih (Nat.le_of_succ_le hlen)
    refine ⟨_, ?_, ht.orbyte hc hlen b⟩
    rw [fillLines_concat, transcript_concat, performAll_append hp]
    exact performAll_orbyte_of_lt ht.inv (ht.cfg_eq.trans hc) (ht.bytes_eq ▸ hlen) b

end

/-! ### INIT, then the fill -/

theorem exec_init_loaded {s : State} {n : Nat} (h1 : 1 ≤ n) (hn : n ≤ s.cap.toNat) :
    exec .init (loaded s n) = .next (inited (loaded s n) n) := by
  have hoperand : (loaded s n).operand.toNat = n := toNat_ofNat_quad (hn.trans_lt s.cap.isLt)
  rw [exec_init_of_le (h1.trans_eq hoperand.symm) (hoperand.trans_le hn), hoperand]

theorem performAll_fillLines_inited {s : State} (hs : s.Inv) {n : Nat} (h1 : 1 ≤ n) (hn : n ≤ s.cap.toNat)
    {bs : List Byte} (hlen : bs.length = ceil8 n) :
    ∃ t, performAll (transcript (fillLines bs)) (inited s n) = .next t ∧ Filled (inited s n) bs t :=
  performAll_fillLines (inv_inited hs h1 hn) rfl (hlen.trans_le (inited_bytes_toNat s hn).ge)

/-- Over a zero-filled array the bytes ORed are the bytes left. -/
theorem Filled.read_eq {s t : State} {bs : List Byte} {n : Nat} (h : Filled (inited s n) bs t)
    (hlen : bs.length = ceil8 n) {j : Nat} (hj : j < bs.length) : t.array.read j = bs[j] := by
  rw [h.read, List.getD_eq_getElem _ _ hj, State.configure_array, State.setArray_array, read_zeroFill,
    if_pos (hj.trans_eq hlen)]
  exact BitVec.zero_or

theorem exec_rdbyte_with_operand {s : State} (h : s.Inv) (hc : s.cfg = true) {j : Nat} (hj : j < s.bytes.toNat) :
    exec .rdbyte { s with operand := BitVec.ofNat 128 j } =
      .next { s with operand := BitVec.ofNat 128 j, data := s.array.read j } := by
  have hoperand : (BitVec.ofNat 128 j).toNat = j := toNat_ofNat_quad (hj.trans s.bytes.isLt)
  rw [exec_rdbyte_of_lt (s := { s with operand := BitVec.ofNat 128 j }) h hc (hoperand.trans_lt hj), hoperand]
  rfl

/-- Settles O51: INIT zero-fills the array, ORBYTE of each byte in turn leaves that byte, and RDBYTE reads it. -/
theorem saveAndLoadCompose : Obligations.SaveAndLoadCompose := by
  intro s n bs hs h1 hn hlen
  obtain ⟨t, hp, ht⟩ := performAll_fillLines_inited (s := loaded s n) hs h1 hn hlen
  have hbytes : t.bytes.toNat = ceil8 n :=
    (congrArg BitVec.toNat ht.bytes_eq).trans (inited_bytes_toNat (loaded s n) hn)
  obtain ⟨herr, herrcode, herrop⟩ := ht.record
  refine ⟨t, ?_, (congrArg BitVec.toNat ht.size_eq).trans (inited_size_toNat (loaded s n) hn), hbytes, ht.cfg_eq,
    herr, herrcode, herrop, fun j hj => ?_⟩
  · rw [transcript_cons, performAll_append ((performAll_op .init n s).trans (exec_init_loaded h1 hn)), hp]
  · have hread : t.array.read j = bs[j] := ht.read_eq hlen hj
    have hlt : j < t.bytes.toNat := hj.trans_eq (hlen.trans hbytes.symm)
    exact ⟨hread, hread ▸ exec_rdbyte_with_operand ht.inv ht.cfg_eq hlt⟩

end Sys2Proof.Laws
end

section
/-! The file of `save`: the words its accesses return, and the bytes the host makes of them
(70_reset_and_hazards.md R122). -/

namespace Sys2Proof.Laws

open Sys2Proof.Machine

/-! ### Little-endian fields -/

theorem ofNat_div_eq_extractLsb' (x : Quad) (k : Nat) :
    BitVec.ofNat 8 (x.toNat / 2 ^ (8 * k)) = x.extractLsb' (8 * k) 8 := by
  rw [BitVec.extractLsb', Nat.shiftRight_eq_div_pow]

theorem bytesOf_eq_map_range (w : Word) : bytesOf w = (List.range 4).map fun b => w.extractLsb' (8 * b) 8 := rfl

/-- The bytes of word `k` are bytes `4k` to `4k + 3` of the register. -/
theorem bytesOf_wordOf (x : Quad) (k : Fin 4) :
    bytesOf (wordOf x k) = (List.range 4).map fun b => x.extractLsb' (8 * (4 * k.val + b)) 8 := by
  rw [bytesOf_eq_map_range]
  refine List.map_congr_left fun b hb => ?_
  have hb : b < 4 := List.mem_range.1 hb
  have hword : (4 * k.val + b) / 4 = k.val := by omega
  have hbyte : (4 * k.val + b) % 4 = b := by omega
  simpa only [hword, hbyte] using extractLsb'_wordOf x (j := 4 * k.val + b) (by omega)

/-- The words of a 128-bit register, X0 first (10_state.md R34). -/
def wordsOf (x : Quad) : List Word := [wordOf x 0, wordOf x 1, wordOf x 2, wordOf x 3]

/-- The bytes of the words of a register are its little-endian field. -/
theorem flatMap_bytesOf_wordsOf (x : Quad) : (wordsOf x).flatMap bytesOf = le16 x.toNat := by
  simp only [wordsOf, le16, ofNat_div_eq_extractLsb', List.flatMap_cons, bytesOf_wordOf]
  rfl

theorem length_le16 (v : Nat) : (le16 v).length = 16 := by rw [le16, List.length_map, List.length_range]

/-- A field of `n` bytes holds the number modulo `2 ^ (8 * n)`. -/
theorem ofLe_map_range (n v : Nat) :
    ofLe ((List.range n).map fun k => BitVec.ofNat 8 (v / 2 ^ (8 * k))) = v % 2 ^ (8 * n) := by
  induction n generalizing v with
  | zero => simp [ofLe, Nat.mod_one]
  | succ n ih =>
    have htail : ∀ k, v / 2 ^ (8 * (k + 1)) = v / 256 / 2 ^ (8 * k) := fun k => by
      rw [Nat.div_div_eq_div_mul, Nat.mul_succ, Nat.add_comm, Nat.pow_add]
    have hmod : v % 2 ^ (8 * (n + 1)) = v % 256 + 256 * (v / 256 % 2 ^ (8 * n)) := by
      rw [Nat.mul_succ, Nat.add_comm, Nat.pow_add, Nat.mod_mul]
    rw [List.range_succ_eq_map, List.map_cons, List.map_map, ofLe, hmod, ← ih (v / 256)]
    simp [Function.comp_def, htail]

theorem ofLe_le16 {v : Nat} (hv : v < 2 ^ 128) : ofLe (le16 v) = v :=
  (ofLe_map_range 16 v).trans (Nat.mod_eq_of_lt hv)

/-! ### What the accesses of `save` return -/

/-- `t` is the block `s` after accesses that returned the words `ws` and wrote no more than DATA and OPERAND. -/
structure Returned (s : State) (ws : List Word) (t : State) : Prop where
  frame : t = { s with data := t.data, operand := t.operand, seen := t.seen }
  words : ∃ rs, t.seen = s.seen ++ rs ∧ dataWords rs = ws

theorem dataWords_append (rs rs' : List Response) : dataWords (rs ++ rs') = dataWords rs ++ dataWords rs' :=
  List.filterMap_append

section
variable {s t u : State} {ws ws' : List Word}

theorem returned_refl (s : State) : Returned s [] s := ⟨rfl, [], (List.append_nil _).symm, rfl⟩

theorem Returned.trans (h : Returned s ws t) (h' : Returned t ws' u) : Returned s (ws ++ ws') u := by
  obtain ⟨hframe, rs, hseen, hwords⟩ := h
  obtain ⟨hframe', rs', hseen', hwords'⟩ := h'
  refine ⟨?_, rs ++ rs', ?_, ?_⟩
  · rw [hframe', hframe]
  · rw [hseen', hseen, List.append_assoc]
  · rw [dataWords_append, hwords, hwords']

theorem Returned.drop_seen (h : Returned s ws t) : dataWords (t.seen.drop s.seen.length) = ws := by
  obtain ⟨-, rs, hseen, hwords⟩ := h
  rw [hseen, List.drop_left, hwords]

theorem Returned.cfg_eq (h : Returned s ws t) : t.cfg = s.cfg := by rw [h.frame]
theorem Returned.bytes_eq (h : Returned s ws t) : t.bytes = s.bytes := by rw [h.frame]
theorem Returned.array_eq (h : Returned s ws t) : t.array = s.array := by rw [h.frame]

theorem Returned.inv (h : Returned s ws t) (hs : s.Inv) : t.Inv := by
  rw [h.frame]
  exact hs

theorem performAll_rd128_size (s : State) :
    ∃ t, performAll (HostLine.rd128 .size).expand s = .next t ∧
      Returned s (wordsOf s.size) t :=
  ⟨_, performAll_reads [.wide .size 0, .wide .size 1, .wide .size 2, .wide .size 3] s, rfl, _, rfl, rfl⟩

/-- The state after RDBYTE of byte `j` and the read of DATA. -/
def byteRead (s : State) (j : Nat) : State :=
  ((loaded s j).setData (s.array.read j)).respond (.data ((s.array.read j).setWidth 32))

theorem performAll_rdbyte_rd (h : s.Inv) (hc : s.cfg = true) {j : Nat} (hj : j < s.bytes.toNat) :
    performAll (transcript [.op .rdbyte j, .rd .data]) s = .next (byteRead s j) := by
  have hexec : exec .rdbyte (loaded s j) = .next ((loaded s j).setData (s.array.read j)) :=
    exec_rdbyte_with_operand (s := loaded s j) h hc hj
  rw [transcript_cons, performAll_append ((performAll_op .rdbyte j s).trans hexec)]
  refine (performAll_single _ _).trans ((perform_rd .data _).trans ?_)
  rw [readReg_data]
  rfl

theorem returned_byteRead (s : State) (j : Nat) : Returned s [(s.array.read j).setWidth 32] (byteRead s j) :=
  ⟨rfl, List.replicate 5 .done ++ [.data ((s.array.read j).setWidth 32)], by simp [byteRead, loaded], rfl⟩

/-- RDBYTE and the read of DATA for each index below `n` return the first `n` bytes. -/
theorem performAll_rdbytes (h : s.Inv) (hc : s.cfg = true) {n : Nat} (hn : n ≤ s.bytes.toNat) :
    ∃ t, performAll (transcript ((List.range n).flatMap fun j => [.op .rdbyte j, .rd .data])) s = .next t ∧
      Returned s (((List.range n).map s.array.read).map (BitVec.setWidth 32)) t := by
  induction n with
  | zero => exact ⟨s, rfl, returned_refl s⟩
  | succ n ih =>
    obtain ⟨t, hp, ht⟩ := ih (Nat.le_of_succ_le hn)
    refine ⟨byteRead t n, ?_, ?_⟩
    · rw [List.range_succ, List.flatMap_append, List.flatMap_singleton, transcript_append, performAll_append hp,
        performAll_rdbyte_rd (ht.inv h) (ht.cfg_eq.trans hc) (ht.bytes_eq ▸ hn)]
    · rw [List.range_succ, List.map_append, List.map_append]
      exact ht.trans (ht.array_eq ▸ returned_byteRead t n)

/-- The accesses of `save` return the words of SIZE and then the bytes of the array. -/
theorem performAll_saveLines (h : s.Inv) (hc : s.cfg = true) :
    ∃ t, performAll (transcript (saveLines s.bytes.toNat)) s = .next t ∧
      Returned s (wordsOf s.size ++ ((List.range s.bytes.toNat).map s.array.read).map (BitVec.setWidth 32)) t := by
  obtain ⟨t, hp, ht⟩ := performAll_rd128_size s
  obtain ⟨u, hp', hu⟩ := performAll_rdbytes (ht.inv h) (ht.cfg_eq.trans hc) le_rfl
  rw [ht.bytes_eq] at hp' hu
  refine ⟨u, ?_, ht.trans (ht.array_eq ▸ hu)⟩
  rw [saveLines, transcript_cons, performAll_append hp, hp']

/-- The file of a size, a hashcount and a buffer (70_reset_and_hazards.md R122). -/
abbrev fileWith (n hashcount : Nat) (bs : List Byte) : List Byte := le16 n ++ le16 hashcount ++ bs

/-- The file the host makes of the words of a size and of bytes read from DATA. -/
theorem Returned.fileOf_eq {x : Quad} {bs : List Byte}
    (h : Returned s (wordsOf x ++ bs.map (BitVec.setWidth 32)) t) (hashcount : Nat) :
    fileOf hashcount (t.seen.drop s.seen.length) = fileWith x.toNat hashcount bs := by
  have hbyte : (fun w : Word => w.extractLsb' 0 8) ∘ BitVec.setWidth 32 = (id : Byte → Byte) :=
    funext extractLsb'_setWidth_byte
  rw [fileOf, h.drop_seen, List.take_left' (by rfl), List.drop_left' (by rfl), flatMap_bytesOf_wordsOf, List.map_map,
    hbyte, List.map_id]

end

end Sys2Proof.Laws
end

section
/-! `load` of a sound file, and so the round trip of `save` and `load` (42_byte_access.md R89;
70_reset_and_hazards.md R122, R123). -/

namespace Sys2Proof.Laws

open Sys2Proof.Machine

/-! ### The parts of a file -/

section
variable (n hashcount : Nat) (bs : List Byte)

theorem take_fileWith : (fileWith n hashcount bs).take 16 = le16 n := by
  rw [fileWith, List.append_assoc, List.take_left' (length_le16 n)]

theorem take_drop_fileWith : ((fileWith n hashcount bs).drop 16).take 16 = le16 hashcount := by
  rw [fileWith, List.append_assoc, List.drop_left' (length_le16 n), List.take_left' (length_le16 hashcount)]

theorem drop_fileWith : (fileWith n hashcount bs).drop 32 = bs :=
  List.drop_left' (by rw [List.length_append, length_le16, length_le16])

theorem length_fileWith : (fileWith n hashcount bs).length = 32 + bs.length := by
  rw [fileWith, List.length_append, List.length_append, length_le16, length_le16]

end

section
variable {n hashcount : Nat} {bs : List Byte}

theorem fileOk_fileWith (h1 : 1 ≤ n) (hn : n < 2 ^ 128) (hh1 : 1 ≤ hashcount) (hh : hashcount < 2 ^ 128)
    (hlen : bs.length = ceil8 n) : fileOk (fileWith n hashcount bs) = true := by
  rw [fileOk, take_fileWith, take_drop_fileWith, length_fileWith, ofLe_le16 hn, ofLe_le16 hh, Nat.add_sub_cancel_left,
    hlen]
  simp [Nat.ne_of_gt h1, Nat.ne_of_gt hh1]

theorem statusRead_inited (s : State) (n : Nat) :
    statusRead (inited s n) = inited (s.respond (.data (statusWord (inited s n)))) n := rfl

/-- A sound file within the capacity is loaded: INIT of its size records no error, and the fill follows. -/
theorem load_fileWith {s : State} (hs : s.Inv) (herr : s.err = false) (h1 : 1 ≤ n) (hn : n ≤ s.cap.toNat)
    (hh1 : 1 ≤ hashcount) (hh : hashcount < 2 ^ 128) (hlen : bs.length = ceil8 n) :
    ∃ t u, load (fileWith n hashcount bs) s = .loaded hashcount u ∧ t.err = false ∧ Filled (inited t n) bs u := by
  have hlt : n < 2 ^ 128 := hn.trans_lt s.cap.isLt
  have hok : (inited (loaded s n) n).err = false := herr
  have hstatus : (statusRead (inited (loaded s n) n)).seen.getLast? =
      some (.data (statusWord (inited (loaded s n) n))) := List.getLast?_concat
  obtain ⟨u, hp, hu⟩ :=
    performAll_fillLines_inited (s := (loaded s n).respond (.data (statusWord (inited (loaded s n) n)))) hs h1 hn hlen
  rw [← statusRead_inited] at hp
  refine ⟨(loaded s n).respond (.data (statusWord (inited (loaded s n) n))), u, ?_, herr, hu⟩
  rw [load, if_pos (fileOk_fileWith h1 hlt hh1 hh hlen), take_fileWith, take_drop_fileWith, drop_fileWith,
    ofLe_le16 hlt, ofLe_le16 hh, performAll_op_status (exec_init_loaded h1 hn)]
  simp only [hstatus, statusWord_err, hok, Bool.false_eq_true, false_and, if_false, hp]

end

/-- Settles O54: the file holds SIZE, the hashcount and the bytes of the array, and its load leaves them. -/
theorem loadRestoresTheSavedFilter : Obligations.LoadRestoresTheSavedFilter := by
  intro s s' hashcount hs hc hs' herr hcap hh1 hh
  obtain ⟨h1, hbytes, -⟩ := sizes_of_cfg hs hc
  have hlen : ((List.range s.bytes.toNat).map s.array.read).length = ceil8 s.size.toNat := by
    rw [List.length_map, List.length_range, hbytes]
  obtain ⟨t, hp, ht⟩ := performAll_saveLines hs hc
  obtain ⟨v, u, hload, hv, hu⟩ := load_fileWith hs' herr h1 hcap hh1 hh hlen
  obtain ⟨huerr, -⟩ := hu.record
  have hread : ∀ j, j < s.bytes.toNat → u.array.read j = s.array.read j := fun j hj => by
    rw [hu.read_eq hlen (hj.trans_eq (hbytes.trans hlen.symm)), List.getElem_map, List.getElem_range]
  refine ⟨t, u, hp, ?_, hu.size_eq.trans (ofNat_toNat_quad _), ?_, hu.cfg_eq, huerr.trans hv, hread, fun k hk => ?_⟩
  · rw [ht.fileOf_eq, hload]
  · calc u.bytes = BitVec.ofNat 128 (ceil8 s.size.toNat) := hu.bytes_eq
      _ = s.bytes := by rw [← hbytes, ofNat_toNat_quad]
  · rw [State.bit_eq, State.bit_eq, hread _ (index_byte hs hc hk).1]

end Sys2Proof.Laws
end

section
/-! NOP, CLRERR and the words that are no command (43_control.md R90 to R92). -/

namespace Sys2Proof.Laws

open Sys2Proof.Machine

/-- The words that R92 of 43_control.md names are those the decoder takes for no command. -/
theorem not_command_iff (w : Word) :
    (∀ i, decode w ≠ .ok i) ↔ w.toNat / 256 ≠ 0 ∨ 0x0A ≤ w.toNat % 256 := by
  rw [← not_exists, exists_decode_iff]
  omega

theorem recordError_eq_ite (s : State) (op : Byte) (c : ErrCode) :
    s.recordError op c = if s.err then s else { s with err := true, errcode := c, errop := op } := rfl

/-- Settles O13: the first event is the CMD write of a word that is no command, which records IllegalCommand alone. -/
theorem illegalWordOnlyRecords : Obligations.IllegalWordOnlyRecords := by
  intro s w rest hh hw
  calc step s = execWord w (taken s rest) := step_command hh
    _ = .next ((taken s rest).recordError (BitVec.ofNat 8 w.toNat) .illegalCommand) :=
      execWord_of_not_command ((not_command_iff w).2 hw) _
    _ = _ := congrArg Host.Outcome.next (recordError_eq_ite _ _ _)

/-- Settles O18: NOP has no error condition, and its own effect is none. -/
theorem nopLeavesTheState : Obligations.NopLeavesTheState :=
  ⟨Encoding.nop.1, fun _ => exec_of_noError (i := .nop) rfl⟩

/-- Settles O19: CLRERR has no error condition, its own effect is the cleared record, and 0x09 is the one word of it. -/
theorem clrerrClearsTheRecord : Obligations.ClrerrClearsTheRecord :=
  ⟨Encoding.clrerr.1, fun h => absurd ((decode_eq_ok_iff_eq_encode _ _).1 h) (by decide),
    fun _ => exec_of_noError (i := .clrerr) rfl⟩

end Sys2Proof.Laws
end

section
/-! The table of error conditions, one row a kind of operand, and what a CMD word records of them
(60_exceptions.md R95 to R99). -/

namespace Sys2Proof.Laws

open Sys2Proof.Machine

section
variable {i : Instr} {s : State} {c : ErrCode}

/-! ### The rows of the table -/

theorem errorOf_init_eq_some_iff :
    errorOf .init s = some c ↔ (s.operand.toNat = 0 ∨ s.cap.toNat < s.operand.toNat) ∧ c = .invalidParameters := by
  rw [errorOf, Option.ite_none_right_eq_some, Option.some.injEq, eq_comm (a := c)]

section
variable {outside : Prop} [Decidable outside]

/-- The two checks of a command that takes an index, CFG first (60_exceptions.md R99). -/
theorem configured_in_range_eq_some_iff :
    (if s.cfg = false then some ErrCode.notConfigured else if outside then some .indexOutOfRange else none) = some c ↔
      (s.cfg = false ∧ c = .notConfigured) ∨ (s.cfg = true ∧ outside ∧ c = .indexOutOfRange) := by
  cases s.cfg with
  | false => simp [eq_comm]
  | true => simp [eq_comm]

theorem configured_in_range_eq_none_iff :
    (if s.cfg = false then some ErrCode.notConfigured else if outside then some .indexOutOfRange else none) = none ↔
      s.cfg = true ∧ ¬ outside := by
  cases s.cfg with
  | false => simp
  | true => simp

end

theorem errorOf_bit_index_eq_some_iff (hi : i = .setb ∨ i = .getb) :
    errorOf i s = some c ↔ (s.cfg = false ∧ c = .notConfigured) ∨
      (s.cfg = true ∧ s.size.toNat ≤ s.operand.toNat ∧ c = .indexOutOfRange) := by
  rcases hi with rfl | rfl <;> exact configured_in_range_eq_some_iff

theorem errorOf_bit_index_eq_none_iff (hi : i = .setb ∨ i = .getb) :
    errorOf i s = none ↔ s.cfg = true ∧ s.operand.toNat < s.size.toNat := by
  rcases hi with rfl | rfl <;> exact configured_in_range_eq_none_iff.trans (and_congr_right' Nat.not_le)

theorem errorOf_byte_index_eq_some_iff (hi : i = .rdbyte ∨ i = .orbyte) :
    errorOf i s = some c ↔ (s.cfg = false ∧ c = .notConfigured) ∨
      (s.cfg = true ∧ s.bytes.toNat ≤ s.operand.toNat ∧ c = .indexOutOfRange) := by
  rcases hi with rfl | rfl <;> exact configured_in_range_eq_some_iff

theorem errorOf_byte_index_eq_none_iff (hi : i = .rdbyte ∨ i = .orbyte) :
    errorOf i s = none ↔ s.cfg = true ∧ s.operand.toNat < s.bytes.toNat := by
  rcases hi with rfl | rfl <;> exact configured_in_range_eq_none_iff.trans (and_congr_right' Nat.not_le)

theorem errorOf_reduction_eq_some_iff (hi : i ∈ [Instr.reduce, .seth, .geth]) :
    errorOf i s = some c ↔ s.cfg = false ∧ c = .notConfigured := by
  rw [errorOf_reduction hi, Option.ite_none_right_eq_some, Option.some.injEq, eq_comm (a := c)]

theorem errorOf_reduction_eq_none_iff (hi : i ∈ [Instr.reduce, .seth, .geth]) :
    errorOf i s = none ↔ s.cfg = true := by
  simp [errorOf_reduction hi]

theorem errorOf_eq_notConfigured_iff (hi : i ∈ [Instr.setb, .getb, .reduce, .seth, .geth, .rdbyte, .orbyte]) :
    errorOf i s = some .notConfigured ↔ s.cfg = false := by
  cases i with
  | nop | init | clrerr => simp at hi
  | setb | getb => simp [errorOf_bit_index_eq_some_iff]
  | reduce | seth | geth => simp [errorOf_reduction_eq_some_iff]
  | rdbyte | orbyte => simp [errorOf_byte_index_eq_some_iff]

/-- The columns of the table: which commands each code belongs to. -/
theorem errorOf_code (h : errorOf i s = some c) :
    (i = .init ∧ c = .invalidParameters) ∨ (i ≠ .init ∧ c = .notConfigured) ∨
      (i ∈ [Instr.setb, .getb, .rdbyte, .orbyte] ∧ c = .indexOutOfRange) := by
  cases i with
  | nop | clrerr => cases h
  | init => exact .inl ⟨rfl, (errorOf_init_eq_some_iff.1 h).2⟩
  | reduce | seth | geth => exact .inr (.inl ⟨nofun, ((errorOf_reduction_eq_some_iff (by decide)).1 h).2⟩)
  | setb | getb =>
    rcases (errorOf_bit_index_eq_some_iff (by decide)).1 h with ⟨-, hc⟩ | ⟨-, -, hc⟩
    · exact .inr (.inl ⟨nofun, hc⟩)
    · exact .inr (.inr ⟨by decide, hc⟩)
  | rdbyte | orbyte =>
    rcases (errorOf_byte_index_eq_some_iff (by decide)).1 h with ⟨-, hc⟩ | ⟨-, -, hc⟩
    · exact .inr (.inl ⟨nofun, hc⟩)
    · exact .inr (.inr ⟨by decide, hc⟩)

end

/-! ### What a CMD word records -/

section
variable {w : Word} {s t : State}

/-- A word with no error condition records none. -/
theorem err_eq_false_of_noError (herr : s.err = false) (hw : errorOfWord w s = none) (h : execWord w s = .next t) :
    t.err = false := by
  cases hd : decode w with
  | error d => simp [errorOfWord_error hd] at hw
  | ok i =>
    rw [errorOfWord_ok hd] at hw
    rw [execWord_ok hd] at h
    by_cases hi : i = .clrerr
    · subst hi
      rw [exec_of_noError hw, body, Host.Outcome.next.injEq] at h
      rw [← h, State.clearError_err]
    · exact ((exec_effect h).record hi hw).1.trans herr

/-- From an empty record a word leaves in it just its error condition. -/
theorem record_iff_errorOfWord (herr : s.err = false) (h : execWord w s = .next t) :
    (t.err = true ↔ ∃ c, errorOfWord w s = some c) ∧ ∀ c, errorOfWord w s = some c → t.errcode = c := by
  cases hw : errorOfWord w s with
  | none => simp [err_eq_false_of_noError herr hw h]
  | some c =>
    rw [execWord_of_error hw, Host.Outcome.next.injEq] at h
    simp [← h, herr]

end

/-- Settles O15: a failing word is its record alone, kept or made. -/
theorem failedCommandOnlyRecords : Obligations.FailedCommandOnlyRecords := by
  intro w s c h
  rw [execWord_of_error h, recordError_eq_ite, opcField_eq_ofNat]

/-- Settles O16: what a word records, the rows and the columns of the table, and a word that is no command. -/
theorem failsExactlyOnItsConditions : Obligations.FailsExactlyOnItsConditions := by
  refine ⟨fun w s t => record_iff_errorOfWord, fun s => ⟨rfl, rfl, ?_, fun i => errorOf_eq_notConfigured_iff,
    fun i hi => ?_, fun i hi => ?_, fun i hi hc => ?_, fun i c h => ?_⟩, fun s _ => errorOfWord_error rfl s⟩
  · simp [errorOf_init_eq_some_iff]
  · simp [errorOf_bit_index_eq_some_iff hi]
  · simp [errorOf_byte_index_eq_some_iff hi]
  · exact (errorOf_reduction_eq_none_iff (by simpa using hi)).2 hc
  · rcases errorOf_code h with ⟨rfl, rfl⟩ | ⟨hi, rfl⟩ | ⟨hi, rfl⟩
    · simp
    · simp [hi]
    · have hinit : i ≠ .init := ne_of_mem_of_not_mem hi (by decide)
      simp [hinit, hi]

end Sys2Proof.Laws
end

section
/-! The block always answers (60_exceptions.md R94), and the error record blocks no command (R104). -/

namespace Sys2Proof.Laws

open Sys2Proof.Machine

/-! ### An answer to every access -/

section
variable {s : State}

/-- A command either fails or has its operand in range, and then the bytes it needs exist. -/
theorem exec_answers (h : s.Inv) (i : Instr) : ∃ t, exec i s = .next t := by
  cases he : errorOf i s with
  | some c => exact ⟨_, exec_of_error he⟩
  | none =>
    cases i with
    | nop | init | reduce | clrerr => exact ⟨_, exec_of_noError he⟩
    | setb =>
      obtain ⟨hc, hk⟩ := (errorOf_bit_index_eq_none_iff (.inl rfl)).1 he
      exact ⟨_, exec_setb_of_lt h hc hk⟩
    | getb =>
      obtain ⟨hc, hk⟩ := (errorOf_bit_index_eq_none_iff (.inr rfl)).1 he
      exact ⟨_, exec_getb_of_lt h hc hk⟩
    | seth => exact ⟨_, exec_seth_of_cfg h ((errorOf_reduction_eq_none_iff (by decide)).1 he)⟩
    | geth => exact ⟨_, exec_geth_of_cfg h ((errorOf_reduction_eq_none_iff (by decide)).1 he)⟩
    | rdbyte =>
      obtain ⟨hc, hj⟩ := (errorOf_byte_index_eq_none_iff (.inl rfl)).1 he
      exact ⟨_, exec_rdbyte_of_lt h hc hj⟩
    | orbyte =>
      obtain ⟨hc, hj⟩ := (errorOf_byte_index_eq_none_iff (.inr rfl)).1 he
      exact ⟨_, exec_orbyte_of_lt h hc hj⟩

theorem execWord_answers (h : s.Inv) (w : Word) : ∃ t, execWord w s = .next t := by
  cases hw : decode w with
  | ok i =>
    rw [execWord_ok hw]
    exact exec_answers h i
  | error d => exact ⟨_, execWord_error hw s⟩

theorem perform_answers (h : s.Inv) (e : HostEvent) : ∃ t, perform e s = .next t := by
  cases e with
  | read width off => exact ⟨_, perform_read s width off⟩
  | reset => exact ⟨_, rfl⟩
  | write width off w =>
    cases ht : target width off with
    | none => exact ⟨_, perform_write_none ht s w⟩
    | some r =>
      obtain ⟨rfl, rfl⟩ := target_some ht
      by_cases hr : r = .cmd
      · subst hr
        exact execWord_answers (s := s.respond .done) h w
      · exact ⟨_, perform_write_reg hr s w⟩

end

/-- Settles O6: with no event to come the state is the answer, and the invariant does not look at the events. -/
theorem blockNeverHalts : Obligations.BlockNeverHalts := by
  intro s h
  cases hh : s.host with
  | nil => exact ⟨s, step_nil hh⟩
  | cons e rest =>
    rw [step_cons hh]
    exact perform_answers (s := s.withHost rest) h e

/-! ### States that differ in the record -/

/-- The state with another error record. -/
def withRecord (s : State) (err : Bool) (code : ErrCode) (op : Byte) : State :=
  { s with err := err, errcode := code, errop := op }

theorem sameButRecord_iff {s t : State} : s.sameButRecord t ↔ ∃ err code op, t = withRecord s err code op := by
  constructor
  · exact fun h => ⟨t.err, t.errcode, t.errop, h.symm⟩
  · rintro ⟨err, code, op, rfl⟩
    rfl

theorem sameButRecord_recordError (s : State) (op : Byte) (c : ErrCode) : s.sameButRecord (s.recordError op c) := by
  cases he : s.err with
  | true =>
    rw [State.recordError_of_err s op c he]
    rfl
  | false =>
    rw [State.recordError_of_not_err s op c he]
    rfl

theorem sameButRecord_of_common {r s t : State} (hs : r.sameButRecord s) (ht : r.sameButRecord t) :
    s.sameButRecord t := by
  obtain ⟨err, code, op, rfl⟩ := sameButRecord_iff.1 hs
  exact ht

theorem exec_withRecord {i : Instr} {s s' : State} (h : exec i s = .next s') (err : Bool) (code : ErrCode) (op : Byte) :
    ∃ t', exec i (withRecord s err code op) = .next t' ∧ s'.sameButRecord t' := by
  cases he : errorOf i s with
  | some c =>
    rw [exec_of_error he, Host.Outcome.next.injEq] at h
    subst h
    exact ⟨_, exec_of_error (s := withRecord s err code op) he, sameButRecord_of_common
      (sameButRecord_recordError s _ c) (sameButRecord_recordError (withRecord s err code op) _ c)⟩
  | none =>
    rw [exec_of_noError (s := withRecord s err code op) he]
    cases exec_effect h with
    | failed hc => simp [he] at hc
    | nop | clrerr | reduce | init => exact ⟨_, rfl, rfl⟩
    | setb _ _ hj | seth _ hj => exact ⟨_, setBitOp_of_lt (s := withRecord s err code op) hj, rfl⟩
    | getb _ _ hj | geth _ hj => exact ⟨_, getBitOp_of_lt (s := withRecord s err code op) hj, rfl⟩
    | rdbyte _ _ hj =>
      exact ⟨_, memRead_of_lt (s := withRecord s err code op) hj fun b => .next (State.setData _ b), rfl⟩
    | orbyte _ _ hj => exact ⟨_, orIntoByte_of_lt (s := withRecord s err code op) hj _ _, rfl⟩

/-- Settles O17: no command's error condition or own effect looks at the record. -/
theorem errorRecordDoesNotBlock : Obligations.ErrorRecordDoesNotBlock := by
  intro i s t s' hst h
  obtain ⟨err, code, op, rfl⟩ := sameButRecord_iff.1 hst
  exact exec_withRecord h err code op

end Sys2Proof.Laws
end

section
/-! The host's sequences answer as the source does: the file of `save`, the answer of `lookup` and the checks of `load`
(70_reset_and_hazards.md R121 to R123). -/

namespace Sys2Proof.Laws

open Sys2Proof.Machine

/-! ### `save` -/

/-- Settles O53: the accesses return the words of SIZE and the bytes of the array, of which the host makes the file. -/
theorem saveWritesTheFileLayout : Obligations.SaveWritesTheFileLayout := by
  intro s hashcount hs hc
  obtain ⟨t, hp, ht⟩ := performAll_saveLines hs hc
  exact ⟨t, hp, ht.fileOf_eq hashcount⟩

/-! ### `lookup` -/

/-- `t` is the block `s` after accesses that wrote no more than OPERAND, RESULT and IDX. -/
def Queried (s t : State) : Prop :=
  t = { s with operand := t.operand, result := t.result, idx := t.idx, seen := t.seen }

theorem Queried.trans {s t u : State} (h : Queried s t) (h' : Queried t u) : Queried s u := by
  rw [Queried, h', h]

theorem queried_looked (s : State) (h : Nat) : Queried s (looked s h) := rfl

/-- `lookup` goes on past each hash whose bit is set and stops at the first whose bit is not. -/
theorem lookup_eq_ite {s : State} (hs : s.Inv) (hc : s.cfg = true) (herr : s.err = false) (hashes : List Nat) :
    ∃ t, Queried s t ∧ lookup hashes s = if ∀ h ∈ hashes, HasHash s h then .present t else .absent t := by
  induction hashes generalizing s with
  | nil => exact ⟨s, rfl, (if_pos nofun).symm⟩
  | cons h hashes ih =>
    rw [lookup_cons_eq hs hc herr]
    by_cases hfirst : HasHash s h
    · have hext := extends_looked hs hc h
      obtain ⟨t, ht, hrest⟩ := ih hext.inv hext.cfg (hext.err.trans herr)
      have hall : (∀ g ∈ hashes, HasHash (looked s h) g) ↔ ∀ g ∈ h :: hashes, HasHash s g :=
        (List.forall_mem_cons.trans (and_iff_right hfirst)).symm
      exact ⟨t, (queried_looked s h).trans ht, (if_pos hfirst).trans (hrest.trans (if_congr hall rfl rfl))⟩
    · have hsome : ¬ ∀ g ∈ h :: hashes, HasHash s g := fun hall => hfirst (hall h List.mem_cons_self)
      exact ⟨looked s h, queried_looked s h, (if_neg hfirst).trans (if_neg hsome).symm⟩

/-- Settles O58, by induction on the hashes: each GETH reads the bit of its hash and writes only OPERAND, RESULT and
IDX. -/
theorem lookupAnswersWhetherAllBitsAreSet : Obligations.LookupAnswersWhetherAllBitsAreSet := by
  intro s hashes hs hc herr
  obtain ⟨t, ht, hanswer⟩ := lookup_eq_ite hs hc herr hashes
  refine ⟨t, ?_, ?_, ?_, ?_, ?_, ?_, ?_, hanswer⟩ <;> rw [ht]
  exact herr

/-! ### `load` -/

theorem fileOk_eq_false_iff (file : List Byte) :
    fileOk file = false ↔ file.length < 32 ∨ ofLe (file.take 16) = 0 ∨ ofLe ((file.drop 16).take 16) = 0 ∨
      file.length - 32 ≠ ceil8 (ofLe (file.take 16)) := by
  simp only [fileOk, Bool.and_eq_false_iff, decide_eq_false_iff_not, Nat.not_le, bne_eq_false_iff_eq,
    beq_eq_false_iff_ne, or_assoc]

/-- CorruptData is the answer to an unsound file and to no other: past the checks each answer is another one. -/
theorem load_eq_corruptData_iff (file : List Byte) (s : State) :
    load file s = .corruptData ↔ fileOk file = false := by
  cases hok : fileOk file with
  | false => exact iff_of_true (if_neg (by simp [hok])) rfl
  | true =>
    refine iff_of_false ?_ nofun
    rw [load, if_pos hok]
    repeat' split
    all_goals exact nofun

theorem ofLe_lt (bs : List Byte) : ofLe bs < 2 ^ (8 * bs.length) := by
  induction bs with
  | nil => exact Nat.one_pos
  | cons b bs ih =>
    have hb : b.toNat < 256 := b.isLt
    rw [ofLe, List.length_cons, Nat.mul_succ, Nat.pow_add]
    omega

/-- A 16-byte field fits in OPERAND. -/
theorem ofLe_take_lt (file : List Byte) : ofLe (file.take 16) < 2 ^ 128 :=
  (ofLe_lt _).trans_le (Nat.pow_le_pow_right Nat.two_pos (Nat.mul_le_mul_left 8 (List.length_take_le 16 file)))

/-- The state in which INIT of a size `n` above the capacity has failed. -/
def initFailed (s : State) (n : Nat) : State :=
  { loaded s n with err := true, errcode := .invalidParameters, errop := 0x01 }

section
variable {s : State} {n : Nat}

theorem exec_init_loaded_of_gt (herr : s.err = false) (hn : n < 2 ^ 128) (hcap : s.cap.toNat < n) :
    exec .init (loaded s n) = .next (initFailed s n) := by
  have hoperand : (loaded s n).operand.toNat = n := toNat_ofNat_quad hn
  have herror : errorOf .init (loaded s n) = some .invalidParameters :=
    errorOf_init_eq_some_iff.2 ⟨.inr (hcap.trans_eq hoperand.symm), rfl⟩
  rw [exec_of_error herror, State.recordError_of_not_err (loaded s n) _ _ herr]
  rfl

/-- A sound file above the capacity: STATUS shows that INIT has failed, and the fill is not begun. -/
theorem load_of_gt {file : List Byte} (hok : fileOk file = true) (herr : s.err = false)
    (hcap : s.cap.toNat < ofLe (file.take 16)) :
    load file s = .invalidParameters (statusRead (initFailed s (ofLe (file.take 16)))) := by
  have hstatus : (statusRead (initFailed s (ofLe (file.take 16)))).seen.getLast? =
      some (.data (statusWord (initFailed s (ofLe (file.take 16))))) := List.getLast?_concat
  rw [load, if_pos hok, performAll_op_status (exec_init_loaded_of_gt herr (ofLe_take_lt file) hcap)]
  simp only [hstatus, statusWord_err, statusWord_errcode]
  exact if_pos ⟨rfl, rfl⟩

end

/-- Settles O59: the checks are those of R123, and INIT of a sound file above the capacity records its error alone. -/
theorem loadChecksTheFile : Obligations.LoadChecksTheFile := by
  refine ⟨fun file s => (load_eq_corruptData_iff file s).trans (fileOk_eq_false_iff file),
    fun file s hsound _ herr hcap => ?_⟩
  have hok : fileOk file = true := Bool.of_not_eq_false fun h => hsound ((load_eq_corruptData_iff file s).2 h)
  exact ⟨_, load_of_gt hok herr hcap, rfl, rfl, rfl, rfl, rfl, rfl, rfl⟩

end Sys2Proof.Laws
end

section
/-! The reset input as a step of the block (70_reset_and_hazards.md R111). -/

namespace Sys2Proof.Laws

open Sys2Proof.Machine

theorem step_reset {s : State} {rest : List HostEvent} (h : s.host = .reset :: rest) :
    step s = .next (s.withHost rest).afterReset :=
  step_cons h

/-- Settles O2: reset builds on the reset literal, and in the new draw no byte is listed or zero-filled. -/
theorem resetEventLeavesResetState : Obligations.ResetEventLeavesResetState := fun s _ h =>
  ⟨_, step_reset h, rfl, read_unfilled (s.array.draw + 1)⟩

end Sys2Proof.Laws
end
